-- ==== Sys2Proof/Word.lean ====
section
/-! DEFINITION. The word types of the checksum engine (00_scope.md rule R6: 32-bit registers and addresses, 16-bit results,
8-bit reads of the port). -/

namespace Sys2Proof

/-- A 32-bit register value, command word or data address (rule R6). -/
abbrev Word := BitVec 32

/-- A 16-bit checksum, in network order: bits 15 to 8 are the first byte on the wire (rules R10 and R15). -/
abbrev Half := BitVec 16

/-- One byte of the data address space (rule R33). -/
abbrev Byte := BitVec 8

end Sys2Proof
end

