-- ==== Sys2Proof/Config.lean ====
section
/-! DEFINITION. The values the spec leaves open and gives no way to choose: constants without a body, so that nothing in Lean
can evaluate one or prove anything of its value. Each is applied to the counter `fresh` of the state, so that every use is a
new value. The open choices that steer a run (the order of the reads, the answers of the memory, the platform's parameters)
are plain data in the state and not here. -/

namespace Sys2Proof

/-- The 16 bits that RESULT.VALUE holds after a command that ends with BUS: any value (60_exceptions.md rules R105 and R106;
93_implementation_defined.md item 3). Log entry 3. -/
opaque Config.busResult : Nat → Half

/-- The byte that a read of a location with read side effects returns: any value (20_memory.md rule R42). Log entry 4. -/
opaque Config.deviceByte : Nat → Byte

end Sys2Proof
end

