-- ==== Sys2Proof/Syntax.lean ====
section
/-! DEFINITION. The three commands of the engine, one constructor per row of spec/opcode_table.json (30_encoding.md rules R55
and R57). Every other operand of a command stands in a register, never in the command word (rule R55). -/

namespace Sys2Proof

/-- A command of the engine (00_scope.md rule R2). -/
inductive Instr where
  /-- CSUM_INET: the Internet one's-complement sum of the LEN bytes at ADDR (40_internet_checksum.md rule R69). -/
  | csumInet
  /-- CSUM_IPHDR: the checksum of an IPv4 header of `hwords` 32-bit words at ADDR (40_internet_checksum.md rule R70).
  `hwords` is written as the number of the assembly notation (rule R61); `Instr.WellFormed` bounds it (DESIGN CHOICE, log entry
  18). -/
  | csumIphdr (hwords : Nat)
  /-- CSUM_UDP: the checksum of the UDP datagram of LEN bytes at ADDR with its pseudo-header
  (41_udp_pseudo_header.md rule R81). -/
  | csumUdp
  deriving DecidableEq, Repr

end Sys2Proof
end

