-- ==== Sys2Proof/WellFormed.lean ====
section
/-! DEFINITION. Which commands have an encoding: the one immediate, HWORDS, is a 4-bit number (30_encoding.md rules R56 and
R61: `0 <= h <= 15`). -/

namespace Sys2Proof

/-- The command can be written as a command word (rules R56 and R61). -/
def Instr.WellFormed : Instr → Bool
  | .csumInet => true
  | .csumIphdr hwords => decide (hwords ≤ 15)
  | .csumUdp => true

end Sys2Proof
end

