-- ==== Sys2Proof/Decode.lean ====
section
/-! DEFINITION. The command word: its fields, the decoder, total on every 32-bit word and rejecting by name, and the encoder
(30_encoding.md rules R53 to R60). The decode of a word depends on the word alone (rule R60). -/

namespace Sys2Proof

/-- OP, bits 3 to 0 (rule R54). -/
def opField (w : Word) : BitVec 4 := w.extractLsb' 0 4

/-- HWORDS, bits 7 to 4 (rules R54 and R56). -/
def hwordsField (w : Word) : BitVec 4 := w.extractLsb' 4 4

/-- RSVD, bits 31 to 8 (rule R54). -/
def rsvdField (w : Word) : BitVec 24 := w.extractLsb' 8 24

/-- Why a command word is illegal (rule R59). -/
inductive IllegalWord where
  /-- A nonzero RSVD field. -/
  | reservedBits
  /-- OP 0x0, or OP 0x4 to 0xF. -/
  | reservedOp
  /-- CSUM_INET or CSUM_UDP with a nonzero HWORDS. -/
  | strayHwords
  deriving DecidableEq, Repr

/-- What a command word stands for: a command, or `Illegal` (rule R58). -/
inductive Decoded where
  | command (i : Instr)
  | illegal (why : IllegalWord)
  deriving DecidableEq, Repr

/-- The decoder of rule R58; the name of an illegal word says which part of rule R59 makes it so. -/
def decode (w : Word) : Decoded :=
  if rsvdField w ≠ 0 then .illegal .reservedBits
  else if opField w = 0x1 ∧ hwordsField w = 0 then .command .csumInet
  else if opField w = 0x2 then .command (.csumIphdr (hwordsField w).toNat)
  else if opField w = 0x3 ∧ hwordsField w = 0 then .command .csumUdp
  else if opField w = 0x1 ∨ opField w = 0x3 then .illegal .strayHwords
  else .illegal .reservedOp

/-- The command word of a well-formed command: the words of rule R57, written as rule R61 writes them
(`(h << 4) OR 0x2` for CSUM_IPHDR). -/
def encode : Instr → Word
  | .csumInet => 0x00000001#32
  | .csumIphdr hwords => (BitVec.ofNat 32 hwords <<< 4) ||| 0x00000002#32
  | .csumUdp => 0x00000003#32

/-- The command that the decoder reads from a word numbered as spec/opcode_table.json numbers it: one 32-bit command word, bit
0 its least significant bit (rules R53 and R54). The word reaches the engine as one number, so there is no byte order to lay it
out in (10_state.md rule R15). A number that needs more than 32 bits is no command word. -/
def decodeTableWord (nbits w : Nat) : Option Instr :=
  if w % 2 ^ nbits < 2 ^ 32 then
    match decode (BitVec.ofNat 32 (w % 2 ^ nbits)) with
    | .command i => some i
    | .illegal _ => none
  else none

end Sys2Proof
end

