-- ==== Sys2Proof/Machine/Memory.lean ====
section
/-! DEFINITION. The data memory: a list of cells in one canonical form, its reads and its writes, and the set of bytes that a
host's cache holds and memory does not yet hold (20_memory.md rules R33, R34 and R52). A cell's key is the data address as a
number below 2^32. -/

namespace Sys2Proof.Machine

/-- Cells by address, addresses rising, at most one cell an address. -/
abbrev Memory := List Host.Cell

/-- The size of the data address space in bytes (20_memory.md rule R33: 2^32). -/
def dataSpace : Nat := 0x100000000

/-- What a byte that nothing has written reads as. The spec gives memory no contents at reset (70_reset_and_hazards.md rule
R122: reset writes no data memory). DESIGN CHOICE, unsafe: 0x00. Log entry 1. -/
def unlistedByte : Byte := 0x00#8

/-- The cells with the cell of `a` set to `v`. -/
def cellsPut (a : Nat) (v : Byte) : List Host.Cell → List Host.Cell
  | [] => [(a, v)]
  | c :: cs => if a < c.1 then (a, v) :: c :: cs else if a = c.1 then (a, v) :: cs else c :: cellsPut a v cs

/-- The cells without the cell of `a`. -/
def cellsDrop (a : Nat) (cs : List Host.Cell) : List Host.Cell := cs.filter (fun c => c.1 != a)

/-- The byte of `a`, if a cell holds it. -/
def cellsFind (cs : List Host.Cell) (a : Nat) : Option Byte := cs.lookup a

/-- The byte that memory holds at `a`. -/
def Memory.read (m : Memory) (a : Nat) : Byte := (cellsFind m a).getD unlistedByte

/-- Memory after the byte at `a` is written. Writing what an unlisted byte reads as takes the cell out, so that equal memories
are equal lists. -/
def Memory.write (m : Memory) (a : Nat) (v : Byte) : Memory :=
  if v = unlistedByte then cellsDrop a m else cellsPut a v m

/-- Addresses strictly rise and lie in the data address space. -/
abbrev cellsSorted (cs : List Host.Cell) : Prop :=
  cs.Pairwise (fun c d => c.1 < d.1) ∧ ∀ c ∈ cs, c.1 < dataSpace

/-- The canonical form of memory: sorted, inside the data address space, no cell equal to what an unlisted byte reads as. -/
abbrev Memory.wf (m : Memory) : Prop := cellsSorted m ∧ ∀ c ∈ m, c.2 ≠ unlistedByte

/-- Memory after the bytes `vs` are written from `a` upward. -/
def Memory.writeAll (m : Memory) (a : Nat) : List Byte → Memory
  | [] => m
  | v :: vs => Memory.writeAll (Memory.write m a v) (a + 1) vs

/-- The cells after the bytes `vs` are put from `a` upward. -/
def cellsPutAll (cs : List Host.Cell) (a : Nat) : List Byte → List Host.Cell
  | [] => cs
  | v :: vs => cellsPutAll (cellsPut a v cs) (a + 1) vs

end Sys2Proof.Machine
end

