-- ==== Sys2Proof/Machine/State.lean ====
section
/-! DEFINITION. The state of the machine, as plain data: the engine's registers and hidden state (10_state.md rules R14 to
R32), the data memory and the hosts that act on both (rule R13), and the open choices of a run. -/

namespace Sys2Proof.Machine

/-- The error codes that a command can end with (60_exceptions.md rule R102; code 0, NONE, is no error). -/
inductive ErrCode where
  /-- 1: the command word decodes as Illegal (rule R103). -/
  | illegalCmd
  /-- 2: the range passes the top of the address space (rule R104). -/
  | range
  /-- 3: a read of the range was answered with a bus error (rule R105). -/
  | bus
  deriving DecidableEq, Repr

/-- The hidden state of a command in execution (10_state.md rules R30 and R31). -/
structure Exec where
  /-- The host whose CMD write issued the command and has not completed (rule R30; 42_host_register_access.md rule R90). -/
  issuer : Nat
  /-- `cmd`, the latched command word. -/
  cmd : Word
  /-- ADDR as latched. -/
  opAddr : Word
  /-- LEN as latched. -/
  opLen : Word
  /-- IPSRC as latched. -/
  opSrc : Word
  /-- IPDST as latched. -/
  opDst : Word
  /-- `pending`, the range offsets not yet read: no repeats; the order carries no meaning. -/
  pending : List Nat
  /-- `bytes`, the offsets read so far, each with its value. -/
  bytes : List (Nat × Byte)
  /-- The 64-bit accumulator (40_internet_checksum.md rule R72): no rule reads it, and no host sees it (rule R30). -/
  acc : BitVec 64
  /-- The error that the command will end with, once it is known. -/
  error : Option ErrCode
  /-- The offset of a read that the port has not answered and never will (70_reset_and_hazards.md rule R130). -/
  stalled : Option Nat
  deriving DecidableEq, Repr

/-- `phase` (10_state.md rule R30). -/
inductive Phase where
  | idle
  | exec (e : Exec)
  deriving DecidableEq, Repr

/-- What answers at data addresses that are not plain memory. The platform decides it (20_memory.md rules R33 and R43). -/
inductive RegionKind where
  /-- The engine's own register window, reachable from its read port: a read is never answered (rules R43 and R130). -/
  | ownWindow
  /-- Locations with read side effects: a read returns any value (rule R42). -/
  | sideEffects
  /-- A read is answered with a bus error, the platform's protection and translation units among the causes (rules R34, R44). -/
  | busError
  /-- A read is never answered (70_reset_and_hazards.md rule R130). -/
  | unanswered
  deriving DecidableEq, Repr

/-- A run of data addresses that is not plain memory. -/
structure Region where
  base : Nat
  size : Nat
  kind : RegionKind
  deriving DecidableEq, Repr

/-- The platform parameters that the spec leaves to the model's argument (00_scope.md rule R6; 20_memory.md rule R43). No step
changes them. -/
structure Platform where
  /-- `REG_BASE`, the address of the register window in the host's address space (10_state.md rule R14). -/
  regBase : Nat
  /-- `READ_PORT_COHERENT` (20_memory.md rule R52). -/
  readPortCoherent : Bool
  /-- The data addresses that are not plain memory. The first region that holds an address decides. -/
  regions : List Region
  deriving DecidableEq, Repr

/-- The data memory's answer to one read of the port, where the address is plain memory (20_memory.md rule R34). -/
inductive PortAnswer where
  | data
  | busError
  | unanswered
  deriving DecidableEq, Repr

/-- The open choices of one read of the port. -/
structure ReadDraw where
  /-- Which of the pending offsets is read: its place in `pending`, modulo the length (20_memory.md rule R38). -/
  pick : Nat
  /-- How the read is answered (rule R34). -/
  answer : PortAnswer
  /-- For a byte that stands dirty in a host's cache, where the port is not coherent: whether the read sees the cached value
  (rule R52; 93_implementation_defined.md item 13). -/
  seesDirty : Bool
  /-- After a bus-error answer: end the command now rather than perform another read (60_exceptions.md rule R105). -/
  stop : Bool
  deriving DecidableEq, Repr

/-- The width of a host access on the host's bus. Only the 32-bit access is defined at the window (42_host_register_access.md
rule R87). -/
inductive AccessWidth where
  | byte
  | half
  | word
  /-- An access of `5 + more` bytes. That the bus can carry one, and that the window refuses it as it refuses a narrow access, is
  the model's choice: rule R87 names only narrow and misaligned ones (DESIGN CHOICE, log entry 24). -/
  | wide (more : Nat)
  deriving DecidableEq, Repr

/-- What a host access does. -/
inductive BusOp where
  | read
  | write (v : Word)
  deriving DecidableEq, Repr

/-- One host access on the host's bus, at a host address. -/
structure Access where
  host : Nat
  addr : Nat
  width : AccessWidth
  op : BusOp
  deriving DecidableEq, Repr

/-- An access that waits for the window (42_host_register_access.md rule R89). `alone` is as in `Turn.access`. -/
structure Held where
  access : Access
  alone : Bool
  deriving DecidableEq, Repr

/-- What the bus has answered a host. -/
inductive Response where
  /-- A register read completed with a value (42_host_register_access.md rules R95 to R99). -/
  | readData (host : Nat) (v : Word)
  /-- A register write completed with a normal response (rules R90 to R94; 70_reset_and_hazards.md rule R121). -/
  | writeDone (host : Nat)
  /-- A host's own 16-bit memory read completed (30_encoding.md rule R61, `mrd16`). -/
  | loaded (host : Nat) (v : Half)
  deriving DecidableEq, Repr

/-- One turn of an agent of 10_state.md rule R13. The order of the turns in `State.script` is the order in which the agents
act; the spec leaves it open, and any order may be written there. -/
inductive Turn where
  /-- A host presents an access. If it is a CMD write, `alone` says that no other agent acts between the acceptance of the
  command and its end, so that the whole command is one step; otherwise each read of the command is a step of its own. Log entry 6. -/
  | access (a : Access) (alone : Bool)
  /-- A host lets its accesses to the window be reordered or merged (42_host_register_access.md rule R88). -/
  | disordered (host : Nat)
  /-- The window performs a held access: that of the host whose access stands at place `k` of `held`, modulo the length; of
  that host's accesses, the oldest (42_host_register_access.md rules R88 and R89). -/
  | grant (k : Nat)
  /-- The engine performs one step of the command in execution (70_reset_and_hazards.md rule R131). -/
  | engine
  /-- A host write of bytes to data memory is performed with respect to the read port (20_memory.md rule R46). -/
  | store (host : Nat) (a : Word) (bytes : List Byte)
  /-- A host write of bytes that stays in a host's cache (rule R52). -/
  | storeCached (host : Nat) (a : Word) (bytes : List Byte)
  /-- A host cleans `n` bytes from `a` of its caches: their dirty bytes are performed (rules R46 and R52). -/
  | clean (host : Nat) (a : Word) (n : Nat)
  /-- A host reads 2 bytes of data memory as a network-order value (30_encoding.md rule R61). -/
  | load16 (host : Nat) (a : Word)
  /-- Another bus master writes a byte of data memory (10_state.md rule R13). -/
  | masterWrite (a : Word) (v : Byte)
  /-- The reset input is asserted (70_reset_and_hazards.md rule R121). -/
  | resetAssert
  /-- The reset input is released. Log entry 12. -/
  | resetRelease
  deriving DecidableEq, Repr

/-- Why the machine stops with a fault. -/
inductive Fault where
  /-- Raised by a host's own load, store, cached store or cache clean whose bytes pass the top of the 2^32-byte data address
  space: those addresses do not exist (20_memory.md rule R33). No engine command raises it. Safe: the run stops. -/
  | dataAddressAbsent
  deriving DecidableEq, Repr

/-- Why the machine gives a step no meaning. -/
inductive Refusal where
  /-- An instruction that has no meaning yet. No arm of `exec` answers with it. Safe. -/
  | notModelled (mnemonic : String)
  /-- Raised by a host access to the register window that is not a 32-bit access at a multiple of 4: the spec calls it outside
  the contract and has a model refuse it (42_host_register_access.md rule R87; for an access wider than 32 bits the refusal is the
  model's choice, log entry 24). Safe: nothing is claimed of the run. -/
  | accessShape
  /-- Raised by `Turn.disordered`: a host that lets its accesses be reordered or merged is outside the contract and a model
  refuses it (42_host_register_access.md rule R88; 93_implementation_defined.md item 10). Safe. -/
  | hostDisorder
  deriving DecidableEq, Repr

/-- The state of the machine. -/
structure State where
  /-- ADDR (10_state.md rule R17). -/
  addr : Word
  /-- LEN (rule R18). -/
  len : Word
  /-- IPSRC (rule R19). -/
  ipsrc : Word
  /-- IPDST (rule R20). -/
  ipdst : Word
  /-- RESULT.VALUE (rule R22). -/
  result : Half
  /-- STATUS.DONE (rule R23). -/
  done : Bool
  /-- STATUS.ERR (rule R23). -/
  err : Bool
  /-- STATUS.STICKY (rule R23). -/
  sticky : Bool
  /-- STATUS.ERRCODE (rule R23). -/
  errcode : BitVec 4
  /-- `phase`, with the hidden state of a command in execution (rules R30 and R31). -/
  phase : Phase
  /-- Whether the reset input is asserted (70_reset_and_hazards.md rule R121). -/
  resetAsserted : Bool
  /-- The host whose access the window is performing: the issuer of the next command accepted. -/
  master : Nat
  /-- The accesses held for the window, oldest first (42_host_register_access.md rule R89). -/
  held : List Held
  /-- What the bus has answered the hosts so far, oldest first. -/
  responses : List Response
  /-- The data memory (rule R13). -/
  mem : Memory
  /-- The bytes that stand dirty in a host's cache (20_memory.md rule R52). -/
  dirty : List Host.Cell
  /-- The platform parameters (00_scope.md rule R6). -/
  platform : Platform
  /-- The turns that the agents will take, first one first. -/
  script : List Turn
  /-- The open choices of the reads to come, first one first. -/
  draws : List ReadDraw
  /-- How many free values and port reads have been used: the argument of the constants of Config. -/
  fresh : Nat
  deriving DecidableEq, Repr

/-- The machine right after reset (10_state.md rule R32; 70_reset_and_hazards.md rules R121 to R123). The fields from `held` on
are not the engine's: log entries 1, 2, 5, 6 and 7 name their values. -/
def State.reset : State where
  addr := 0#32
  len := 0#32
  ipsrc := 0#32
  ipdst := 0#32
  result := 0#16
  done := false
  err := false
  sticky := false
  errcode := 0#4
  phase := .idle
  resetAsserted := false
  master := 0
  held := []
  responses := []
  mem := []
  dirty := []
  platform := { regBase := 0, readPortCoherent := false, regions := [] }
  script := []
  draws := []
  fresh := 0

end Sys2Proof.Machine
end

