-- ==== Sys2Proof/Machine/Operands.lean ====
section
/-! DEFINITION. The operands of the commands and the arithmetic over them: the byte counts (20_memory.md rule R36), the units of
a range and their exact sum, the fold and the one's-complement sum (40_internet_checksum.md rules R63 to R67), the
pseudo-header (41_udp_pseudo_header.md rules R78 to R80), and the value of each command (rules R69, R70 and R81). -/

namespace Sys2Proof.Machine

/-! ### Byte counts -/

/-- CSUM_INET reads LEN as a signed number; a count of zero or less is no byte (rules R18, R36 and R69). -/
def inetByteCount (len : Word) : Nat := if 0 < len.toInt then len.toInt.toNat else 0

/-- CSUM_IPHDR: four bytes a header word (rules R36, R56 and R70). -/
def iphdrByteCount (hwords : Nat) : Nat := 4 * hwords

/-- CSUM_UDP reads LEN as an unsigned number (rules R36 and R81). -/
def udpByteCount (len : Word) : Nat := len.toNat

/-- The byte count of a command, from the latched LEN and the command word (rule R36). -/
def byteCount (i : Instr) (opLen : Word) : Nat :=
  match i with
  | .csumInet => inetByteCount opLen
  | .csumIphdr hwords => iphdrByteCount hwords
  | .csumUdp => udpByteCount opLen

/-- The range of `n` bytes from `a` does not pass the top of the address space (rule R36). -/
def rangeValid (a : Word) (n : Nat) : Bool := decide (a.toNat + n ≤ dataSpace)

/-! ### Units, sum and fold -/

/-- The unit `W[k]` of a range of `n` bytes: the first byte of the pair is the high byte, and an odd last byte stands before a
zero (rules R39 and R63). -/
def unit (b : Nat → Byte) (n k : Nat) : Nat :=
  256 * (b (2 * k)).toNat + (if 2 * k + 1 < n then (b (2 * k + 1)).toNat else 0)

/-- `S(b, n)`, the exact sum of the units of a range (rule R64). -/
def rangeSum (b : Nat → Byte) (n : Nat) : Nat := ((List.range ((n + 1) / 2)).map (unit b n)).sum

/-- `fold16(S)` (rule R65). -/
def fold16 (s : Nat) : Nat := if s = 0 then 0 else 1 + (s - 1) % 0xFFFF

/-- The one's-complement addition `+'` (rule R66). -/
def ocAdd (x y : Nat) : Nat := fold16 (x + y)

/-- `ocsum(b, n)`, the one's-complement sum of a range (rule R67). -/
def ocsum (b : Nat → Byte) (n : Nat) : Half := BitVec.ofNat 16 (fold16 (rangeSum b n))

/-- The one's complement of a 16-bit value, `~16` (00_scope.md rule R7). -/
def complement16 (v : Half) : Half := v ^^^ 0xFFFF#16

/-- `swap16` (00_scope.md rule R7). -/
def swap16 (v : Half) : Half := v.extractLsb' 0 8 ++ v.extractLsb' 8 8

/-! ### The pseudo-header -/

/-- `PROTO_UDP` (41_udp_pseudo_header.md rule R78). PRESUMED by the spec itself, log entry 17. -/
def protoUdp : Nat := 17

/-- `LP`, the pseudo-header's length word (rule R79). -/
def lengthWord (opLen : Word) : Nat := opLen.toNat % 0x10000

/-- The two 16-bit halves of an address, added (rule R80). -/
def addressSum (a : Word) : Nat := (a.extractLsb' 16 16).toNat + (a.extractLsb' 0 16).toNat

/-- `pseudo(src, dst, LP)` (rule R80). -/
def pseudo (src dst : Word) (lp : Nat) : Nat := addressSum src + addressSum dst + protoUdp + lp

/-! ### The value of each command -/

/-- The value of CSUM_INET over the bytes `b` of a range of `n` (rule R69). -/
def inetValue (b : Nat → Byte) (n : Nat) : Half := ocsum b n

/-- The value of CSUM_IPHDR (rule R70). -/
def iphdrValue (b : Nat → Byte) (n : Nat) : Half := complement16 (ocsum b n)

/-- The value of CSUM_UDP (rules R81 and R82: no substitution of a computed zero). -/
def udpValue (b : Nat → Byte) (n : Nat) (src dst opLen : Word) : Half :=
  complement16 (BitVec.ofNat 16 (fold16 (rangeSum b n + pseudo src dst (lengthWord opLen))))

/-- `compute(c, b, n, op_len, op_src, op_dst)` (40_internet_checksum.md rule R68). -/
def compute (i : Instr) (b : Nat → Byte) (n : Nat) (opLen opSrc opDst : Word) : Half :=
  match i with
  | .csumInet => inetValue b n
  | .csumIphdr _ => iphdrValue b n
  | .csumUdp => udpValue b n opSrc opDst opLen

/-- Bytes in network order as a 16-bit number: the first is the high byte (00_scope.md rule R10). -/
def networkHalf (b0 b1 : Byte) : Half := b0 ++ b1

/-- The two bytes of a 16-bit number in network order (rule R10). -/
def halfBytes (v : Half) : List Byte := [v.extractLsb' 8 8, v.extractLsb' 0 8]

/-- The four bytes of a 32-bit number in network order (rule R10). -/
def wordBytes (v : Word) : List Byte :=
  [v.extractLsb' 24 8, v.extractLsb' 16 8, v.extractLsb' 8 8, v.extractLsb' 0 8]

end Sys2Proof.Machine
end

