-- ==== Sys2Proof/Machine/Datapath.lean ====
section
/-! DEFINITION. The reference datapath of 40_internet_checksum.md rule R72: a 64-bit accumulator with end-around carry over an
odd leading byte, 8-byte chunks and a tail, two folds, and a byte swap for an odd start. The engine's own accumulator
(10_state.md rule R30) adds with the same `eac`, one byte of the range at a time. -/

namespace Sys2Proof.Machine

/-- `eac(acc, w)`: 64-bit addition with the carry out of bit 63 added back into bit 0 (rule R72). -/
def eac (acc w : BitVec 64) : BitVec 64 := if acc + w < w then acc + w + 1#64 else acc + w

/-- A byte zero-extended to the accumulator's width. -/
def accByte (b : Byte) : BitVec 64 := b.setWidth 64

/-- Two bytes in network order at the accumulator's width. -/
def accPair (b0 b1 : Byte) : BitVec 64 := (b0 ++ b1).setWidth 64

/-- Eight bytes in network order: one chunk (rule R72, case (c)). -/
def accChunk (b0 b1 b2 b3 b4 b5 b6 b7 : Byte) : BitVec 64 := b0 ++ b1 ++ b2 ++ b3 ++ b4 ++ b5 ++ b6 ++ b7

/-- The tail: 2-byte units, then a last byte as the high byte of a unit (rule R72, case (b)). -/
def accTail (acc : BitVec 64) : List Byte → BitVec 64
  | [] => acc
  | [b0] => eac acc (accPair b0 0x00#8)
  | b0 :: b1 :: rest => accTail (eac acc (accPair b0 b1)) rest

/-- The 8-byte chunks, then the tail. -/
def accChunks (acc : BitVec 64) : List Byte → BitVec 64
  | b0 :: b1 :: b2 :: b3 :: b4 :: b5 :: b6 :: b7 :: rest => accChunks (eac acc (accChunk b0 b1 b2 b3 b4 b5 b6 b7)) rest
  | rest => accTail acc rest

/-- The sum of the upper part and the lower `w` bits. -/
def halfAdd (w x : Nat) : Nat := x % 2 ^ w + x / 2 ^ w

/-- The half-addition repeated while the value does not fit in `w` bits, at most `fuel` times. -/
def foldWhile (w : Nat) : Nat → Nat → Nat
  | 0, x => x
  | fuel + 1, x => if x < 2 ^ w then x else foldWhile w fuel (halfAdd w x)

/-- The two folds, 64 to 32 bits and 32 to 16 bits. Three half-additions bring any value of twice the width within the width. -/
def foldAcc (acc : BitVec 64) : Half := BitVec.ofNat 16 (foldWhile 16 3 (foldWhile 32 3 acc.toNat))

/-- `refdp(a, n)` over the bytes `bs` that stand from address `a` (rules R72 and R73). -/
def refdp (a : Word) (bs : List Byte) : Half :=
  if a.toNat % 2 = 1 then
    match bs with
    | [] => 0#16
    | b :: rest => swap16 (foldAcc (accChunks (eac 0#64 (accByte b)) rest))
  else foldAcc (accChunks 0#64 bs)

/-- What the byte at offset `i` of a range adds to the sum: a byte at an even offset is the high byte of its unit (rule R63). -/
def offsetWeight (i : Nat) (v : Byte) : Nat := if i % 2 = 0 then 256 * v.toNat else v.toNat

end Sys2Proof.Machine
end

