-- ==== Sys2Proof/Machine/Flags.lean ====
section
/-! DEFINITION. STATUS: its fields as one word, and every rule that writes them (10_state.md rules R23 and R27; 60_exceptions.md
rules R102, R108 and R109; 42_host_register_access.md rules R93 and R98). -/

namespace Sys2Proof.Machine

/-- The ERRCODE value of an error (60_exceptions.md rule R102). -/
def ErrCode.code : ErrCode → BitVec 4
  | .illegalCmd => 1#4
  | .range => 2#4
  | .bus => 3#4

/-- A host read of STATUS: `{24'b0, ERRCODE, 1'b0, STICKY, ERR, DONE}` (42_host_register_access.md rule R98). -/
def statusWord (done err sticky : Bool) (errcode : BitVec 4) : Word :=
  0#24 ++ errcode ++ 0#1 ++ BitVec.ofBool sticky ++ BitVec.ofBool err ++ BitVec.ofBool done

/-- The STATUS fields after completion without error; STICKY is unchanged (60_exceptions.md rule R108). -/
def State.markDone (s : State) : State := { s with done := true, err := false, errcode := 0#4 }

/-- The STATUS fields after completion with an error (60_exceptions.md rule R109). -/
def State.markError (c : ErrCode) (s : State) : State :=
  { s with done := false, err := true, errcode := c.code, sticky := true }

/-- The STATUS fields after a host write of `v`: bit 2 set clears STICKY, and every other bit is ignored
(42_host_register_access.md rule R93). -/
def State.writeStatus (v : Word) (s : State) : State := { s with sticky := s.sticky && !v.getLsbD 2 }

end Sys2Proof.Machine
end

