-- ==== Sys2Proof/Machine/Ops.lean ====
section
/-! DEFINITION. The shared operations over the state: the read port, the acceptance of a command, the steps of a command in
execution, its two completions (an error is raised by ONE operation, `raiseError`: the engine's only exception,
60_exceptions.md rules R109 and R112; there is no return from it, rule R113), the frame of every command
(40_internet_checksum.md rule R68), and reset (70_reset_and_hazards.md rule R121). -/

namespace Sys2Proof.Machine

/-! ### Small updates -/

/-- The bus answers a host. -/
def State.respond (r : Response) (s : State) : State := { s with responses := s.responses ++ [r] }

/-- The window holds an access (42_host_register_access.md rule R89). -/
def State.holdAccess (h : Held) (s : State) : State := { s with held := s.held ++ [h] }

/-- The engine's phase set. -/
def State.setPhase (p : Phase) (s : State) : State := { s with phase := p }

/-- RESULT.VALUE written (10_state.md rule R22). -/
def State.setResult (v : Half) (s : State) : State := { s with result := v }

/-- One free value used. -/
def State.spendFresh (s : State) : State := { s with fresh := s.fresh + 1 }

/-- One draw used. -/
def State.spendDraw (s : State) : State := { s with draws := s.draws.tail }

/-- The window accepts no access: a command is in execution, or the reset input is asserted (42_host_register_access.md rule
R89; 70_reset_and_hazards.md rule R121). -/
def State.busy (s : State) : Bool :=
  match s.phase with
  | .idle => s.resetAsserted
  | .exec _ => true

/-! ### The read port -/

/-- The draw used where `State.draws` has none left: the first pending offset, answered with data, a dirty byte of an incoherent
cache not seen; and after a bus-error answer the command ends with no further read (`stop`), which 60_exceptions.md rule R105
leaves open. DESIGN CHOICE, log entry 2. -/
def ReadDraw.exhausted : ReadDraw := { pick := 0, answer := .data, seesDirty := false, stop := true }

/-- The draw of the read that is `k` reads ahead. -/
def State.drawAt (s : State) (k : Nat) : ReadDraw := s.draws.getD k ReadDraw.exhausted

/-- What stands at a data address, if it is not plain memory. -/
def Platform.regionAt (p : Platform) (a : Nat) : Option RegionKind :=
  (p.regions.find? (fun r => decide (r.base ≤ a) && decide (a < r.base + r.size))).map Region.kind

/-- The byte that a read of plain memory returns: the memory's, unless a host's cache holds a dirty copy that the port sees
(20_memory.md rules R45 and R52). -/
def State.seenByte (s : State) (seesDirty : Bool) (a : Word) : Byte :=
  match cellsFind s.dirty a.toNat with
  | some v => if s.platform.readPortCoherent || seesDirty then v else s.mem.read a.toNat
  | none => s.mem.read a.toNat

/-- The port's answer to one read. -/
inductive PortReply where
  | data (v : Byte)
  | busError
  | unanswered
  deriving DecidableEq, Repr

/-- `MemRead(a, 1)` (20_memory.md rules R34, R42, R43 and R44). DEDUCED and DESIGN CHOICE: log entries 4, 13 and 23. -/
def State.portRead (s : State) (d : ReadDraw) (a : Word) : PortReply :=
  match s.platform.regionAt a.toNat, d.answer with
  | some .ownWindow, _ => .unanswered
  | some .unanswered, _ => .unanswered
  | some .busError, _ => .busError
  | _, .busError => .busError
  | _, .unanswered => .unanswered
  | some .sideEffects, .data => .data (Config.deviceByte s.fresh)
  | none, .data => .data (s.seenByte d.seesDirty a)

/-! ### A command in execution -/

/-- The data address of offset `i` of the range (20_memory.md rule R36). -/
def Exec.address (e : Exec) (i : Nat) : Word := e.opAddr + BitVec.ofNat 32 i

/-- The byte read at an offset, as the arithmetic uses it; an offset that was not read counts as zero. -/
def Exec.byteAt (e : Exec) (i : Nat) : Byte := (e.bytes.lookup i).getD 0#8

/-- An offset leaves `pending`. -/
def Exec.takePlace (k : Nat) (e : Exec) : Exec := { e with pending := e.pending.eraseIdx k }

/-- A byte read: kept under its offset, and added to the accumulator (10_state.md rule R30; DEDUCED, log entry 19). -/
def Exec.record (i : Nat) (v : Byte) (e : Exec) : Exec :=
  { e with bytes := (i, v) :: e.bytes, acc := eac e.acc (BitVec.ofNat 64 (offsetWeight i v)) }

/-- The command ends with an error: the engine's exception. STATUS takes the code, RESULT is left (or, on BUS, left at any
value), nothing else is saved, and the host's CMD write completes with a normal response (60_exceptions.md rules R106, R107,
R109 and R112). -/
def raiseError (c : ErrCode) (e : Exec) (s : State) : State :=
  match c with
  | .illegalCmd => (((s.markError .illegalCmd).setPhase .idle).respond (.writeDone e.issuer))
  | .range => (((s.markError .range).setPhase .idle).respond (.writeDone e.issuer))
  | .bus =>
    ((((s.setResult (Config.busResult s.fresh)).spendFresh.markError .bus).setPhase .idle).respond (.writeDone e.issuer))

/-- The command completes without error: RESULT takes its value, STATUS says DONE, and the host's CMD write completes
(40_internet_checksum.md rule R68; 60_exceptions.md rule R108). -/
def completeOk (v : Half) (e : Exec) (s : State) : State :=
  (((s.setResult v).markDone).setPhase .idle).respond (.writeDone e.issuer)

/-- All reads of the command are performed and answered with data: the value is computed from the latched word and operands and
the bytes read, and the command completes. -/
def concludeCommand (e : Exec) (s : State) : State :=
  match decode e.cmd with
  | .command i =>
    completeOk (compute i e.byteAt (byteCount i e.opLen) e.opLen e.opSrc e.opDst) e s
  | .illegal _ => raiseError .illegalCmd e s

/-- The engine performs one read of the range: one pending offset, each at most once (20_memory.md rules R37, R38 and R41). -/
def readOne (e : Exec) (s : State) : State :=
  let d := s.drawAt 0
  let k := d.pick % e.pending.length
  let i := e.pending.getD k 0
  let rest := e.takePlace k
  match s.portRead d (e.address i) with
  | .data v => s.spendDraw.spendFresh.setPhase (.exec (rest.record i v))
  | .busError => s.spendDraw.spendFresh.setPhase (.exec { rest with error := some .bus })
  | .unanswered => s.spendDraw.spendFresh.setPhase (.exec { rest with stalled := some i })

/-- One step of the engine: a read of the range, or the end of the command. Between commands the engine does nothing
(60_exceptions.md rule R120), and while a read is unanswered it does nothing (70_reset_and_hazards.md rule R130). After a
bus-error answer it performs any subset of the reads not yet performed and then ends the command (rule R105; DESIGN CHOICE, log entry 21). -/
def engineTurn (s : State) : State :=
  match s.phase with
  | .idle => s
  | .exec e =>
    match e.stalled, e.error, e.pending with
    | some _, _, _ => s
    | none, none, [] => concludeCommand e s
    | none, none, _ :: _ => readOne e s
    | none, some .illegalCmd, _ => raiseError .illegalCmd e s
    | none, some .range, _ => raiseError .range e s
    | none, some .bus, [] => raiseError .bus e s
    | none, some .bus, _ :: _ => if (s.drawAt 0).stop then raiseError .bus e s.spendDraw else readOne e s

/-- `k` steps of the engine. -/
def engineTurns : Nat → State → State
  | 0, s => s
  | k + 1, s => engineTurns k (engineTurn s)

/-- The most steps that the command in execution can still take: its pending reads and its end. -/
def State.turnsLeft (s : State) : Nat :=
  match s.phase with
  | .idle => 0
  | .exec e => e.pending.length + 1

/-- The error that a command is known to end with when it is accepted: ILLEGAL_CMD before RANGE (60_exceptions.md rules R103,
R104 and R110). `n` is the byte count, none for an illegal word. -/
def acceptError (a : Word) : Option Nat → Option ErrCode
  | none => some .illegalCmd
  | some n => if rangeValid a n then none else some .range

/-- The hidden state at acceptance: the command word and the operands are latched (10_state.md rule R30; 92_eei_decisions.md
D33). No byte is pending where the command will end with an error (60_exceptions.md rules R103 and R104; DEDUCED, log entry 20). -/
def latchCommand (w : Word) (n : Option Nat) (s : State) : Exec where
  issuer := s.master
  cmd := w
  opAddr := s.addr
  opLen := s.len
  opSrc := s.ipsrc
  opDst := s.ipdst
  pending := if (acceptError s.addr n).isNone then List.range (n.getD 0) else []
  bytes := []
  acc := 0#64
  error := acceptError s.addr n
  stalled := none

/-- The acceptance of the CMD write of `w`: the operands are latched and the phase is `Exec` (40_internet_checksum.md rule R68;
42_host_register_access.md rule R90). -/
def acceptCommand (w : Word) (n : Option Nat) (s : State) : State := s.setPhase (.exec (latchCommand w n s))

/-- The command in execution runs until it ends, or stays at a read that is never answered. -/
def finishCommand (s : State) : State := engineTurns s.turnsLeft s

/-- The byte count of a command word; none where the word is illegal. -/
def wordByteCount (w opLen : Word) : Option Nat :=
  match decode w with
  | .command i => some (byteCount i opLen)
  | .illegal _ => none

/-- The access that writes `w` to CMD from the host whose access the window is performing. -/
def State.cmdAccess (s : State) (w : Word) : Access :=
  { host := s.master, addr := s.platform.regBase, width := .word, op := .write w }

/-- The frame of every command (40_internet_checksum.md rule R68): the CMD write of `w` is accepted and the command runs to its
end. While the window accepts no access, the CMD write is held (42_host_register_access.md rule R89). -/
def runFrame (w : Word) (n : Option Nat) (s : State) : State :=
  if s.busy then s.holdAccess { access := s.cmdAccess w, alone := true }
  else finishCommand (acceptCommand w n s)

/-! ### Reset -/

/-- Every register, flag and the phase at its reset value (10_state.md rule R32). A command in execution is abandoned with no
outcome, and its host's CMD write completes with a normal response (70_reset_and_hazards.md rule R121). No data memory is read
or written (rule R122). -/
def State.clearEngine (s : State) : State :=
  let t := { s with addr := 0#32, len := 0#32, ipsrc := 0#32, ipdst := 0#32, result := 0#16, done := false, err := false,
                    sticky := false, errcode := 0#4, phase := .idle }
  match s.phase with
  | .idle => t
  | .exec e => t.respond (.writeDone e.issuer)

/-- The reset input is asserted. -/
def State.assertReset (s : State) : State := { s.clearEngine with resetAsserted := true }

/-- The reset input is released. A release with no assertion before it does nothing (DEDUCED, log entry 12). -/
def State.releaseReset (s : State) : State :=
  if s.resetAsserted then { s.clearEngine with resetAsserted := false } else s

end Sys2Proof.Machine
end

