-- ==== Sys2Proof/Machine/Internet.lean ====
section
/-! DEFINITION. The meanings of the two plain Internet checksum commands (40_internet_checksum.md rules R69 to R71). The engine
never writes data memory, and neither checks nor zeroes a checksum field (rules R35 and R71). -/

namespace Sys2Proof.Machine

/-- CSUM_INET (rule R69): LEN is read as a signed byte count, and RESULT takes the uncomplemented sum (90_conflicts.md C4). -/
def execCsumInet (s : State) : Host.Outcome State Fault Refusal :=
  .next (runFrame (encode .csumInet) (some (inetByteCount s.len)) s)

/-- CSUM_IPHDR (rule R70): the byte count comes from the command word; LEN, IPSRC and IPDST are not used. -/
def execCsumIphdr (hwords : Nat) (s : State) : Host.Outcome State Fault Refusal :=
  .next (runFrame (encode (.csumIphdr hwords)) (some (iphdrByteCount hwords)) s)

end Sys2Proof.Machine
end

