-- ==== Sys2Proof/Machine/Udp.lean ====
section
/-! DEFINITION. The meaning of the UDP checksum command (41_udp_pseudo_header.md rules R78 to R84). -/

namespace Sys2Proof.Machine

/-- CSUM_UDP (rule R81): LEN is read as an unsigned byte count, and the pseudo-header comes from IPSRC, IPDST and LEN. -/
def execCsumUdp (s : State) : Host.Outcome State Fault Refusal :=
  .next (runFrame (encode .csumUdp) (some (udpByteCount s.len)) s)

end Sys2Proof.Machine
end

