-- ==== Sys2Proof/Machine/Dispatch.lean ====
section
/-! DEFINITION. The meaning of every command, one arm a constructor of Instr. -/

namespace Sys2Proof.Machine

def exec (i : Instr) (s : State) : Host.Outcome State Fault Refusal :=
  match i with
  | .csumInet => Sys2Proof.Machine.execCsumInet s
  | .csumIphdr hwords => Sys2Proof.Machine.execCsumIphdr hwords s
  | .csumUdp => Sys2Proof.Machine.execCsumUdp s

end Sys2Proof.Machine
end

