-- ==== Sys2Proof/Machine/Window.lean ====
section
/-! DEFINITION. The register window as a host sees it: which slot an access reaches, and the reads and writes of every slot but
the write of CMD (10_state.md rule R14; 42_host_register_access.md rules R87 to R99). -/

namespace Sys2Proof.Machine

/-- The eight word slots of the window (10_state.md rule R14). -/
inductive Slot where
  | cmd
  | addr
  | len
  | ipsrc
  | ipdst
  | result
  | status
  | reserved
  deriving DecidableEq, Repr

/-- The offset of a slot from REG_BASE (rule R14). -/
def Slot.offset : Slot → Nat
  | .cmd => 0x00
  | .addr => 0x04
  | .len => 0x08
  | .ipsrc => 0x0C
  | .ipdst => 0x10
  | .result => 0x14
  | .status => 0x18
  | .reserved => 0x1C

/-- The slot at an offset, where the offset is a multiple of 4 within the 32-byte window. -/
def slotAt : Nat → Option Slot
  | 0x00 => some .cmd
  | 0x04 => some .addr
  | 0x08 => some .len
  | 0x0C => some .ipsrc
  | 0x10 => some .ipdst
  | 0x14 => some .result
  | 0x18 => some .status
  | 0x1C => some .reserved
  | _ => none

/-- The bytes of an access. -/
def AccessWidth.bytes : AccessWidth → Nat
  | .byte => 1
  | .half => 2
  | .word => 4
  | .wide more => 5 + more

/-- Where an access on the host's bus goes. -/
inductive Target where
  /-- It touches no byte of the window, and does not reach the engine. -/
  | outside
  /-- It touches the window but is not a 32-bit access at a multiple of 4 within it (42_host_register_access.md rule R87; for a
  wider access, log entry 24). -/
  | badShape
  | slot (sl : Slot)
  deriving DecidableEq, Repr

/-- Where an access goes, for a window of 32 bytes at `base` (DEDUCED, log entry 15). -/
def Access.target (base : Nat) (a : Access) : Target :=
  if a.addr + a.width.bytes ≤ base ∨ base + 32 ≤ a.addr then .outside
  else if a.width = .word ∧ base ≤ a.addr then
    match slotAt (a.addr - base) with
    | some sl => .slot sl
    | none => .badShape
  else .badShape

/-- The value that a host read of a slot returns; no read has a side effect (rules R95 to R99). -/
def State.readSlot (s : State) : Slot → Word
  | .cmd => 0#32
  | .addr => s.addr
  | .len => s.len
  | .ipsrc => s.ipsrc
  | .ipdst => s.ipdst
  | .result => s.result.setWidth 32
  | .status => statusWord s.done s.err s.sticky s.errcode
  | .reserved => 0#32

/-- A host write of `v` to a slot (rules R91 to R94). A write of CMD is not here: it issues a command (rule R90). -/
def State.writeSlot (v : Word) (s : State) : Slot → State
  | .cmd => s
  | .addr => { s with addr := v }
  | .len => { s with len := v }
  | .ipsrc => { s with ipsrc := v }
  | .ipdst => { s with ipdst := v }
  | .result => s
  | .status => s.writeStatus v
  | .reserved => s

end Sys2Proof.Machine
end

