-- ==== Sys2Proof/Machine/Turns.lean ====
section
/-! DEFINITION. What each agent does in one turn: a host's access to the window and the order of held accesses
(42_host_register_access.md rules R87 to R99), the hosts' and other masters' actions on data memory (20_memory.md rules R45 to
R52; 30_encoding.md rule R61), the engine's own step, and the reset input. -/

namespace Sys2Proof.Machine

/-- The window, free, accepts the CMD write of `w` (rule R90): a command of the opcode table runs as `exec` says, and an illegal
word runs the same frame to its ILLEGAL_CMD error (60_exceptions.md rule R103). Where other agents act during the command, it
is accepted only, and its steps follow. -/
def issueCommand (w : Word) (alone : Bool) (s : State) : Host.Outcome State Fault Refusal :=
  if alone then
    match decode w with
    | .command i => exec i s
    | .illegal _ => .next (runFrame w none s)
  else .next (acceptCommand w (wordByteCount w s.len) s)

/-- The window, free, performs an access. -/
def performAccess (a : Access) (alone : Bool) (s : State) : Host.Outcome State Fault Refusal :=
  match a.target s.platform.regBase with
  | .outside => .next s
  | .badShape => .refused .accessShape
  | .slot sl =>
    match a.op with
    | .read => .next (s.respond (.readData a.host (s.readSlot sl)))
    | .write v =>
      if sl = .cmd then issueCommand v alone { s with master := a.host }
      else .next ((s.writeSlot v sl).respond (.writeDone a.host))

/-- A host presents an access. It is held while the window accepts none, and while an earlier access of the same host is held
(rules R88 and R89; DEDUCED, log entries 10 and 11). -/
def arriveAccess (a : Access) (alone : Bool) (s : State) : Host.Outcome State Fault Refusal :=
  match a.target s.platform.regBase with
  | .outside => .next s
  | .badShape => .refused .accessShape
  | .slot _ =>
    if s.busy || s.held.any (fun h => h.access.host == a.host) then
      .next (s.holdAccess { access := a, alone := alone })
    else performAccess a alone s

/-- The window, if free, performs a held access: the oldest of the host whose access stands at place `k`, modulo the number of
held accesses (rules R88 and R89). -/
def grantHeld (k : Nat) (s : State) : Host.Outcome State Fault Refusal :=
  if s.busy then .next s
  else
    match s.held[k % s.held.length]? with
    | none => .next s
    | some x =>
      match s.held.find? (fun h => h.access.host == x.access.host) with
      | none => .next s
      | some y =>
        performAccess y.access y.alone
          { s with held := s.held.eraseP (fun h => h.access.host == x.access.host) }

/-- Whether the `n` bytes from `a` all lie in the data address space (20_memory.md rule R33). -/
def insideDataSpace (a : Word) (n : Nat) : Bool := decide (a.toNat + n ≤ dataSpace)

/-- The dirty bytes outside the `n` bytes from `a`. -/
def cellsOutside (a n : Nat) (cs : List Host.Cell) : List Host.Cell :=
  cs.filter (fun c => !(decide (a ≤ c.1) && decide (c.1 < a + n)))

/-- The dirty bytes inside the `n` bytes from `a`. -/
def cellsInside (a n : Nat) (cs : List Host.Cell) : List Host.Cell :=
  cs.filter (fun c => decide (a ≤ c.1) && decide (c.1 < a + n))

/-- Memory after the given cells are performed to it. -/
def Memory.writeCells (m : Memory) : List Host.Cell → Memory
  | [] => m
  | c :: cs => Memory.writeCells (m.write c.1 c.2) cs

/-- A host write performed to memory: the bytes stand there, and in no cache (DESIGN CHOICE, log entries 9, 14 and 16). -/
def storeBytes (a : Word) (bs : List Byte) (s : State) : Host.Outcome State Fault Refusal :=
  if insideDataSpace a bs.length then
    .next { s with mem := s.mem.writeAll a.toNat bs, dirty := cellsOutside a.toNat bs.length s.dirty }
  else .fault .dataAddressAbsent

/-- A host write that stays in a host's cache; the caches of all hosts are one set (DESIGN CHOICE, log entry 9). -/
def storeCachedBytes (a : Word) (bs : List Byte) (s : State) : Host.Outcome State Fault Refusal :=
  if insideDataSpace a bs.length then .next { s with dirty := cellsPutAll s.dirty a.toNat bs }
  else .fault .dataAddressAbsent

/-- A cache clean: the dirty bytes of the run are performed to memory. -/
def cleanBytes (a : Word) (n : Nat) (s : State) : Host.Outcome State Fault Refusal :=
  if insideDataSpace a n then
    .next { s with mem := s.mem.writeCells (cellsInside a.toNat n s.dirty), dirty := cellsOutside a.toNat n s.dirty }
  else .fault .dataAddressAbsent

/-- The byte that a host's own read of data memory returns: its cache's where it holds one. -/
def State.hostByte (s : State) (a : Nat) : Byte := (cellsFind s.dirty a).getD (s.mem.read a)

/-- A host's own read of two bytes as a network-order value (30_encoding.md rule R61). -/
def loadHalf (host : Nat) (a : Word) (s : State) : Host.Outcome State Fault Refusal :=
  if insideDataSpace a 2 then
    .next (s.respond (.loaded host (networkHalf (s.hostByte a.toNat) (s.hostByte (a.toNat + 1)))))
  else .fault .dataAddressAbsent

/-- Another bus master writes one byte: it stands in memory, and in no cache (DESIGN CHOICE, log entries 9 and 14). -/
def masterWriteByte (a : Word) (v : Byte) (s : State) : State :=
  { s with mem := s.mem.write a.toNat v, dirty := cellsOutside a.toNat 1 s.dirty }

/-- One turn. -/
def takeTurn (t : Turn) (s : State) : Host.Outcome State Fault Refusal :=
  match t with
  | .access a alone => arriveAccess a alone s
  | .disordered _ => .refused .hostDisorder
  | .grant k => grantHeld k s
  | .engine => if s.resetAsserted then .next s else .next (engineTurn s)
  | .store _ a bs => storeBytes a bs s
  | .storeCached _ a bs => storeCachedBytes a bs s
  | .clean _ a n => cleanBytes a n s
  | .load16 host a => loadHalf host a s
  | .masterWrite a v => .next (masterWriteByte a v s)
  | .resetAssert => .next s.assertReset
  | .resetRelease => .next s.releaseReset

/-- Where no agent has a turn written down: the engine goes on with its command (70_reset_and_hazards.md rule R131, fairness);
between commands the window performs the held accesses, oldest first; otherwise nothing happens (60_exceptions.md rule R120). DESIGN CHOICE, log entry 6. -/
def quietTurn (s : State) : Host.Outcome State Fault Refusal :=
  if s.resetAsserted then .next s
  else
    match s.phase with
    | .exec _ => .next (engineTurn s)
    | .idle => grantHeld 0 s

/-- The CMD write that issues the command word `w`, from host 0, as the next turn. -/
def State.placeCommand (w : Word) (s : State) : State :=
  { s with
    phase := .idle
    resetAsserted := false
    held := s.held.filter (fun h => h.access.host != 0)
    script := .access { host := 0, addr := s.platform.regBase, width := .word, op := .write w } true :: s.script }

end Sys2Proof.Machine
end

