-- ==== Sys2Proof/Machine/Step.lean ====
section
/-! DEFINITION. One step of the machine: the next turn of an agent, or, where none is written down, what happens by itself. -/

namespace Sys2Proof.Machine

/-- One step. The engine has no program counter and fetches nothing (10_state.md rule R26; 20_memory.md rule R51): a command is
a host's write of CMD, so what a step runs is the next turn of the script. -/
def step (s : State) : Host.Outcome State Fault Refusal :=
  match s.script with
  | [] => quietTurn s
  | t :: rest => takeTurn t { s with script := rest }

/-- The state in which the next step issues the command word `w`: the window is free, and the next turn is host 0's write of
`w` to CMD. The bits above `nbits` are zero. Log entry 8. -/
def State.withFetchWord (s : State) (nbits w : Nat) : State := s.placeCommand (BitVec.ofNat 32 (w % 2 ^ nbits))

end Sys2Proof.Machine
end

