-- ==== Sys2Proof/Laws/PerInstr.lean ====
section
/-! SUPPORT. Statements made per command: the encoding round trip (30_encoding.md rules R57 and R58). -/

namespace Sys2Proof.Laws.RoundTrip

/-- The command's own word decodes to it, where it has one. -/
def Statement (i : Instr) : Prop := i.WellFormed = true → decode (encode i) = .command i

theorem csumInet : Statement .csumInet := fun _ => by decide

theorem csumIphdr (hwords : Nat) : Statement (.csumIphdr hwords) := fun h => by
  have hle : hwords ≤ 15 := by simpa [Instr.WellFormed] using h
  interval_cases hwords <;> decide

theorem csumUdp : Statement .csumUdp := fun _ => by decide

end Sys2Proof.Laws.RoundTrip
end

