-- ==== Sys2Proof/Machine/HostProgram.lean ====
section
/-! DEFINITION. The host assembly notation and the pseudo-instructions (30_encoding.md rules R61 and R62), as turns of a host.
Every CMD write of the notation is issued with no other agent acting during the command. -/

namespace Sys2Proof.Machine

/-- A line of the notation (rule R61). `rd NAME => v` is `rd NAME` with the value the rules give, so it is no other line. -/
inductive HostLine where
  | wr (r : Slot) (v : Word)
  | rd (r : Slot)
  | cmd (i : Instr)
  | mwr8 (a : Word) (v : Byte)
  | mwr16 (a : Word) (v : Half)
  | mwr32 (a : Word) (v : Word)
  | mrd16 (a : Word)
  deriving DecidableEq, Repr

/-- A line that the notation admits: `cmd csum.iphdr, h` has `0 <= h <= 15` (rule R61). -/
def HostLine.WellFormed : HostLine → Bool
  | .cmd i => i.WellFormed
  | .wr _ _ | .rd _ | .mwr8 _ _ | .mwr16 _ _ | .mwr32 _ _ | .mrd16 _ => true

/-- A 32-bit access of `host` to a slot of the window at `base`. -/
def slotAccess (base host : Nat) (r : Slot) (op : BusOp) : Access :=
  { host := host, addr := base + r.offset, width := .word, op := op }

/-- The bus operation of a line (rule R61); multi-byte memory values are in network order. -/
def HostLine.turn (base host : Nat) : HostLine → Turn
  | .wr r v => .access (slotAccess base host r (.write v)) true
  | .rd r => .access (slotAccess base host r .read) true
  | .cmd i => .access (slotAccess base host .cmd (.write (encode i))) true
  | .mwr8 a v => .store host a [v]
  | .mwr16 a v => .store host a (halfBytes v)
  | .mwr32 a v => .store host a (wordBytes v)
  | .mrd16 a => .load16 host a

/-- A pseudo-instruction (rule R62). -/
inductive Pseudo where
  | csumInet (a n : Word)
  | csumIphdr (a : Word) (h : Nat)
  | csumUdp (a n s d : Word)
  | chk
  | clr
  deriving DecidableEq, Repr

/-- The expansion of a pseudo-instruction (rules R62 and R100). -/
def Pseudo.expand : Pseudo → List HostLine
  | .csumInet a n => [.wr .addr a, .wr .len n, .cmd .csumInet, .rd .result]
  | .csumIphdr a h => [.wr .addr a, .cmd (.csumIphdr h), .rd .result]
  | .csumUdp a n s d => [.wr .addr a, .wr .len n, .wr .ipsrc s, .wr .ipdst d, .cmd .csumUdp, .rd .result]
  | .chk => [.rd .status]
  | .clr => [.wr .status 0x00000004#32]

/-- The turns of a pseudo-instruction of `host`. -/
def Pseudo.turns (base host : Nat) (p : Pseudo) : List Turn := p.expand.map (HostLine.turn base host)

end Sys2Proof.Machine
end

