-- ==== Sys2Proof/Safety.lean ====
section
/-! DEFINITION. The terms in which claims speak of a run: the states a run can be in (`State.Inv`), the turns that keep the
contract of the spec (`Turn.inContract`), and what a host must have seen to for a command to complete with its value
(70_reset_and_hazards.md rules R124 to R130). -/

namespace Sys2Proof.Machine

/-! ### What a command needs -/

/-- The byte at offset `i` of the range from ADDR, as the read port sees it now. -/
def State.rangeByte (s : State) (i : Nat) : Byte := s.seenByte false (s.addr + BitVec.ofNat 32 i)

/-- The `n` bytes from ADDR are plain memory, and each is settled: the port sees the caches, or no cache holds it dirty
(20_memory.md rules R42, R43 and R46). -/
abbrev State.rangeSettled (s : State) (n : Nat) : Prop :=
  ∀ i < n, s.platform.regionAt (s.addr + BitVec.ofNat 32 i).toNat = none ∧
    (s.platform.readPortCoherent = true ∨ cellsFind s.dirty (s.addr + BitVec.ofNat 32 i).toNat = none)

/-- The data memory answers the next `n` reads with data (20_memory.md rule R34). -/
abbrev State.readsAnswered (s : State) (n : Nat) : Prop := ∀ k < n, (s.drawAt k).answer = .data

/-- The window takes the next access of host `h` at once: it accepts accesses, and holds none of that host. -/
def State.freeFor (s : State) (h : Nat) : Bool := !s.busy && !s.held.any (fun x => x.access.host == h)

/-! ### Turns within the contract -/

/-- A turn that the spec gives a meaning to: a window access is of 32 bits at a multiple of 4 (42_host_register_access.md rule
R87), hosts keep their order (rule R88), and a host's memory access stays inside the data address space. -/
def Turn.inContract (base : Nat) : Turn → Bool
  | .access a _ => a.target base != .badShape
  | .disordered _ => false
  | .store _ a bs => insideDataSpace a bs.length
  | .storeCached _ a bs => insideDataSpace a bs.length
  | .clean _ a n => insideDataSpace a n
  | .load16 _ a => insideDataSpace a 2
  | .grant _ | .engine | .masterWrite _ _ | .resetAssert | .resetRelease => true

/-- Every turn written down and every access held keeps the contract. -/
def State.inContract (s : State) : Prop :=
  (∀ t ∈ s.script, t.inContract s.platform.regBase = true) ∧ ∀ x ∈ s.held, x.access.target s.platform.regBase ≠ .badShape

/-- `k` steps from `s` run without a fault and without a refusal. -/
def SafeRun (k : Nat) (s : State) : Prop := ∃ t, Sys2Proof.core.run k s = .next t

/-! ### The invariant -/

/-- The offsets that a command in execution has asked the port for or will ask it for. -/
def Exec.offsets (e : Exec) : List Nat := e.pending ++ (e.stalled.toList ++ e.bytes.map Prod.fst)

/-- What holds of a command in execution, beside the state it runs in: the latched copies are the registers' values (the window
is closed, 92_eei_decisions.md D33), the error is one that rules R103 to R105 of 60_exceptions.md raise, a command with an
error known at acceptance reads nothing and has nothing pending (rules R103 and R104; log entry 20), every byte is read at most
once and within the range (20_memory.md rule R37), none is left out before the end, and the accumulator folds to the sum of the
bytes read (the model's choice, log entry 19). -/
structure Exec.Sound (s : State) (e : Exec) : Prop where
  latched : e.opAddr = s.addr ∧ e.opLen = s.len ∧ e.opSrc = s.ipsrc ∧ e.opDst = s.ipdst
  error : e.error = acceptError e.opAddr (wordByteCount e.cmd e.opLen) ∨
    (acceptError e.opAddr (wordByteCount e.cmd e.opLen) = none ∧ e.error = some .bus)
  noRead : acceptError e.opAddr (wordByteCount e.cmd e.opLen) ≠ none → e.offsets = []
  once : e.offsets.Nodup
  inside : ∀ i ∈ e.offsets, i < (wordByteCount e.cmd e.opLen).getD 0
  whole : e.error = none → ∀ i < (wordByteCount e.cmd e.opLen).getD 0, i ∈ e.offsets
  accumulated : fold16 e.acc.toNat = fold16 (e.bytes.map (fun p => offsetWeight p.1 p.2)).sum

/-- The STATUS fields are legal: DONE and ERR are never both 1, and ERR is 1 exactly when ERRCODE is not 0 (10_state.md rule
R23); the reserved codes are never produced (60_exceptions.md rule R102). -/
def State.statusLegal (s : State) : Prop :=
  ¬(s.done = true ∧ s.err = true) ∧ (s.err = true ↔ s.errcode ≠ 0#4) ∧ s.errcode.toNat ≤ 3

/-- Every engine register and flag holds its reset value and no command is in execution (10_state.md rule R32). -/
def State.engineCleared (s : State) : Prop :=
  s.addr = 0#32 ∧ s.len = 0#32 ∧ s.ipsrc = 0#32 ∧ s.ipdst = 0#32 ∧ s.result = 0#16 ∧ s.done = false ∧ s.err = false ∧
    s.sticky = false ∧ s.errcode = 0#4 ∧ s.phase = .idle

/-- The invariant of the machine. -/
structure State.Inv (s : State) : Prop where
  status : s.statusLegal
  memory : s.mem.wf
  caches : cellsSorted s.dirty
  command : ∀ e, s.phase = .exec e → e.Sound s
  inReset : s.resetAsserted = true → s.engineCleared

end Sys2Proof.Machine
end

