-- ==== Sys2Proof/Certificates/Slice0/Obligations.lean ====
section
/-! DEFINITION. The statements about the checksum engine, from the numbered rules of spec/. Each docstring names the rules it
rests on; OBLIGATIONS.json lists them. Where a statement speaks of a free value, of the answers of the memory or of a platform
parameter, it holds for every value of it. -/

open Sys2Proof Sys2Proof.Machine

/-! ### The command word -/

/-- Words written out from the encodings of 30_encoding.md rules R54 and R57 decode to the commands they stand for, and the words
of vectors V-ERR-01 to V-ERR-08 are illegal. -/
def Obligations.SpecWordsDecode : Prop :=
  decode 0x00000001#32 = .command .csumInet ∧
  decode 0x00000002#32 = .command (.csumIphdr 0) ∧
  decode 0x00000052#32 = .command (.csumIphdr 5) ∧
  decode 0x000000F2#32 = .command (.csumIphdr 15) ∧
  decode 0x00000003#32 = .command .csumUdp ∧
  decode 0x00000000#32 = .illegal .reservedOp ∧
  decode 0x00000004#32 = .illegal .reservedOp ∧
  decode 0x0000000F#32 = .illegal .reservedOp ∧
  decode 0x00000011#32 = .illegal .strayHwords ∧
  decode 0x00000013#32 = .illegal .strayHwords ∧
  decode 0x00000100#32 = .illegal .reservedBits ∧
  decode 0x80000001#32 = .illegal .reservedBits ∧
  decode 0xFFFFFFFF#32 = .illegal .reservedBits

/-- Decode and encode agree on every command that the notation admits (30_encoding.md rules R54, R56, R57 and R61). -/
def Obligations.DecodeEncodeIsIdentity : Prop :=
  ∀ i : Instr, i.WellFormed = true → decode (encode i) = .command i

/-- Every word that decodes to a command is that command's one encoding, and the command is well-formed: no two words stand for
one command (30_encoding.md rules R57 and R59). -/
def Obligations.DecodedWordIsItsEncoding : Prop :=
  ∀ (w : Word) (i : Instr), decode w = .command i → i.WellFormed = true ∧ encode i = w

/-- The rows of the opcode map: a word encodes a command exactly when it matches that command's row, HWORDS is bits 7 to 4, and no
word matches two rows (30_encoding.md rule R57). -/
def Obligations.LegalWordsMatchOpcodeMap : Prop :=
  ∀ w : Word,
    (decode w = .command .csumInet ↔ w &&& 0xFFFFFFFF#32 = 0x00000001#32) ∧
    (∀ h, decode w = .command (.csumIphdr h) ↔ w &&& 0xFFFFFF0F#32 = 0x00000002#32 ∧ h = w.toNat / 16 % 16) ∧
    (decode w = .command .csumUdp ↔ w &&& 0xFFFFFFFF#32 = 0x00000003#32) ∧
    ¬(w &&& 0xFFFFFFFF#32 = 0x00000001#32 ∧ w &&& 0xFFFFFF0F#32 = 0x00000002#32) ∧
    ¬(w &&& 0xFFFFFFFF#32 = 0x00000001#32 ∧ w &&& 0xFFFFFFFF#32 = 0x00000003#32) ∧
    ¬(w &&& 0xFFFFFF0F#32 = 0x00000002#32 ∧ w &&& 0xFFFFFFFF#32 = 0x00000003#32)

/-- A word is illegal exactly when it has a nonzero RSVD field, OP 0x0, OP 0x4 to 0xF, or a nonzero HWORDS with OP 0x1 or 0x3
(30_encoding.md rule R59). -/
def Obligations.IllegalWordsAreTheReservedOnes : Prop :=
  ∀ w : Word,
    (∃ why, decode w = .illegal why) ↔
      w.toNat / 256 ≠ 0 ∨ w.toNat % 16 = 0 ∨ 4 ≤ w.toNat % 16 ∨
        ((w.toNat % 16 = 1 ∨ w.toNat % 16 = 3) ∧ w.toNat / 16 % 16 ≠ 0)

/-! ### The arithmetic -/

/-- `fold16` is what the source's repeated half-addition leaves, with the properties that 40_internet_checksum.md rule R65
gives it. -/
def Obligations.FoldIsRepeatedHalfAddition : Prop :=
  ∀ S : Nat,
    (fold16 S = if S = 0 then 0 else 1 + (S - 1) % 0xFFFF) ∧
    (∃ k, (halfAdd 16)^[k] S < 0x10000) ∧
    (∀ k, (halfAdd 16)^[k] S < 0x10000 → (halfAdd 16)^[k] S = fold16 S) ∧
    (fold16 S = 0 ↔ S = 0) ∧
    (0 < S → 0x0001 ≤ fold16 S ∧ fold16 S ≤ 0xFFFF ∧ fold16 S % 0xFFFF = S % 0xFFFF) ∧
    (0 < S → S % 0xFFFF = 0 → fold16 S = 0xFFFF)

/-- One's-complement addition: folding before or after adding is the same, `+'` is commutative and associative, and a list of
units may be summed in any order and in any grouping into chunks (40_internet_checksum.md rule R66). -/
def Obligations.SumIsFreeOfOrderAndGrouping : Prop :=
  (∀ x y : Nat, fold16 (x + y) = fold16 (fold16 x + fold16 y)) ∧
  (∀ x y : Nat, ocAdd x y = ocAdd y x) ∧
  (∀ x y z : Nat, ocAdd (ocAdd x y) z = ocAdd x (ocAdd y z)) ∧
  (∀ (units : List Nat) (chunks : List (List Nat)), units.Perm chunks.flatten →
    fold16 units.sum = chunks.foldl (fun acc c => ocAdd acc (fold16 c.sum)) 0)

/-- The reference datapath of 40_internet_checksum.md rule R72 gives the one's-complement sum of rule R67, for every start
address, length and byte values. -/
def Obligations.ReferenceDatapathGivesSum : Prop :=
  ∀ (a : Word) (bs : List Byte), refdp a bs = ocsum (fun i => bs.getD i 0x00#8) bs.length

/-- The byte-swap law (40_internet_checksum.md rule R74): a zero byte before the range swaps the bytes of its sum, and swapping a
fold is folding 256 times the sum. -/
def Obligations.ByteSwapLaw : Prop :=
  (∀ (b : Nat → Byte) (n : Nat), ocsum (fun i => if i = 0 then 0x00#8 else b (i - 1)) (n + 1) = swap16 (ocsum b n)) ∧
  (∀ S : Nat, swap16 (BitVec.ofNat 16 (fold16 S)) = BitVec.ofNat 16 (fold16 (256 * S)))

/-- The self-check law (40_internet_checksum.md rule R75): the checksum of a range whose 16-bit field at an even offset is zero,
written into that field in network order, makes the sum 0xFFFF and the complemented sum 0x0000. -/
def Obligations.FilledChecksumVerifies : Prop :=
  ∀ (b : Nat → Byte) (n j : Nat), 2 * j + 1 < n → b (2 * j) = 0x00#8 → b (2 * j + 1) = 0x00#8 →
    ∀ b' : Nat → Byte,
      (∀ i, i ≠ 2 * j → i ≠ 2 * j + 1 → b' i = b i) →
      networkHalf (b' (2 * j)) (b' (2 * j + 1)) = iphdrValue b n →
      inetValue b' n = 0xFFFF#16 ∧ iphdrValue b' n = 0x0000#16

/-- Changing any one bit of one byte of a range changes its CSUM_INET and CSUM_IPHDR values (40_internet_checksum.md rule R76). -/
def Obligations.SingleBitChangeIsSeen : Prop :=
  ∀ (b b' : Nat → Byte) (n i : Nat) (j : Nat), i < n → j < 8 →
    (∀ k, k ≠ i → b' k = b k) → b' i = b i ^^^ (0x01#8 <<< j) →
    inetValue b' n ≠ inetValue b n ∧ iphdrValue b' n ≠ iphdrValue b n

/-- The UDP self-check law (41_udp_pseudo_header.md rule R86): the CSUM_UDP value of a datagram whose checksum field (bytes 6 and
7) is zero, written into the field, or 0xFFFF written there in place of a computed zero, makes the value 0x0000. -/
def Obligations.FilledDatagramVerifies : Prop :=
  ∀ (b : Nat → Byte) (n : Nat) (src dst opLen : Word), 7 < n → b 6 = 0x00#8 → b 7 = 0x00#8 →
    ∀ b' : Nat → Byte, (∀ i, i ≠ 6 → i ≠ 7 → b' i = b i) →
      (networkHalf (b' 6) (b' 7) = udpValue b n src dst opLen ∨
        (udpValue b n src dst opLen = 0x0000#16 ∧ networkHalf (b' 6) (b' 7) = 0xFFFF#16)) →
      udpValue b' n src dst opLen = 0x0000#16

/-- Flipping any one bit of the datagram, of IPSRC or of IPDST of a datagram that verifies makes the CSUM_UDP value non-zero
(41_udp_pseudo_header.md rule R86, last sentence). -/
def Obligations.FlippedDatagramBitIsSeen : Prop :=
  ∀ (b : Nat → Byte) (n : Nat) (src dst opLen : Word), udpValue b n src dst opLen = 0x0000#16 →
    (∀ (b' : Nat → Byte) (i j : Nat), i < n → j < 8 → (∀ k, k ≠ i → b' k = b k) → b' i = b i ^^^ (0x01#8 <<< j) →
      udpValue b' n src dst opLen ≠ 0x0000#16) ∧
    (∀ j < 32, udpValue b n (src ^^^ (0x00000001#32 <<< j)) dst opLen ≠ 0x0000#16 ∧
      udpValue b n src (dst ^^^ (0x00000001#32 <<< j)) opLen ≠ 0x0000#16)

/-- The two layers of CSUM_UDP (41_udp_pseudo_header.md rule R85): the datagram's sum and the pseudo-header's, added with
end-around carry, then complemented. -/
def Obligations.UdpValueIsSumOfTwoLayers : Prop :=
  ∀ (b : Nat → Byte) (n : Nat) (src dst opLen : Word),
    udpValue b n src dst opLen =
      complement16 (BitVec.ofNat 16 (ocAdd (ocsum b n).toNat
        (fold16 (src.toNat / 65536 + src.toNat % 65536 + (dst.toNat / 65536 + dst.toNat % 65536) + 17 +
          opLen.toNat % 65536))))

/-- CSUM_UDP never returns 0xFFFF (41_udp_pseudo_header.md rule R81, corner cases), and an address of all ones changes nothing: in
IPSRC with every IPDST, and in IPDST with every IPSRC, 0xFFFFFFFF gives the value that 0x00000000 gives. -/
def Obligations.UdpValueIsNeverAllOnes : Prop :=
  (∀ (b : Nat → Byte) (n : Nat) (src dst opLen : Word), udpValue b n src dst opLen ≠ 0xFFFF#16) ∧
  (∀ (b : Nat → Byte) (n : Nat) (dst opLen : Word),
    udpValue b n 0xFFFFFFFF#32 dst opLen = udpValue b n 0x00000000#32 dst opLen) ∧
  (∀ (b : Nat → Byte) (n : Nat) (src opLen : Word),
    udpValue b n src 0xFFFFFFFF#32 opLen = udpValue b n src 0x00000000#32 opLen)

/-! ### The commands -/

/-- CSUM_INET over a valid, settled range whose reads are answered with data completes, whatever the order of its reads: RESULT
takes the fold of the sum of its units, STATUS says DONE with STICKY unchanged, the CMD write of the issuing host completes, and
nothing else changes but the draws and the free values used (40_internet_checksum.md rules R68 and R69; 60_exceptions.md rule
R108). The range is that of LEN read as a signed number. -/
def Obligations.CsumInetCompletesWithSum : Prop :=
  ∀ (s : State) (n : Nat), n = (if 0 < s.len.toInt then s.len.toInt.toNat else 0) →
    s.busy = false → s.addr.toNat + n ≤ 2 ^ 32 → s.rangeSettled n → s.readsAnswered n →
    exec .csumInet s = .next { s with
      result := BitVec.ofNat 16 (fold16 (rangeSum s.rangeByte n))
      done := true
      err := false
      errcode := 0#4
      responses := s.responses ++ [Response.writeDone s.master]
      draws := s.draws.drop n
      fresh := s.fresh + n }

/-- CSUM_IPHDR, likewise, for every HWORDS: RESULT takes the complement of the fold over `4 * HWORDS` bytes
(40_internet_checksum.md rules R68, R70 and R71; 60_exceptions.md rule R108). -/
def Obligations.CsumIphdrCompletesWithComplement : Prop :=
  ∀ (s : State) (h : Nat), h ≤ 15 →
    s.busy = false → s.addr.toNat + 4 * h ≤ 2 ^ 32 → s.rangeSettled (4 * h) → s.readsAnswered (4 * h) →
    exec (.csumIphdr h) s = .next { s with
      result := BitVec.ofNat 16 (fold16 (rangeSum s.rangeByte (4 * h))) ^^^ 0xFFFF#16
      done := true
      err := false
      errcode := 0#4
      responses := s.responses ++ [Response.writeDone s.master]
      draws := s.draws.drop (4 * h)
      fresh := s.fresh + 4 * h }

/-- CSUM_UDP, likewise, over LEN bytes read as an unsigned count: RESULT takes the complement of the fold of the datagram's units,
the halves of IPSRC and IPDST, 17 and `LEN mod 2^16` (40_internet_checksum.md rule R68; 41_udp_pseudo_header.md rules R79 to R82;
60_exceptions.md rule R108). -/
def Obligations.CsumUdpCompletesWithComplement : Prop :=
  ∀ s : State,
    s.busy = false → s.addr.toNat + s.len.toNat ≤ 2 ^ 32 → s.rangeSettled s.len.toNat → s.readsAnswered s.len.toNat →
    exec .csumUdp s = .next { s with
      result := BitVec.ofNat 16 (fold16 (rangeSum s.rangeByte s.len.toNat +
        (s.ipsrc.toNat / 65536 + s.ipsrc.toNat % 65536 + (s.ipdst.toNat / 65536 + s.ipdst.toNat % 65536) + 17 +
          s.len.toNat % 65536))) ^^^ 0xFFFF#16
      done := true
      err := false
      errcode := 0#4
      responses := s.responses ++ [Response.writeDone s.master]
      draws := s.draws.drop s.len.toNat
      fresh := s.fresh + s.len.toNat }

/-- A command all of whose reads are answered with data completes, whatever bytes it read: over a range of plain memory and of
locations with read side effects, settled or not, in any order, RESULT takes the command's value over some bytes, each one that
the port may return for its place: memory's byte; for a byte that stands dirty in a cache, the cached one, or, where the port is
not coherent, either; for a location with read side effects, any value (20_memory.md rules R37, R38, R42 and R52;
40_internet_checksum.md rule R68; 93_implementation_defined.md items 6 and 13). That a command over locations with read side effects
runs on to DONE, each such byte a value of Config.deviceByte, and leaves memory and all else unchanged, is the model's choice (log
entry 4). -/
def Obligations.AnsweredCommandSumsTheBytesItRead : Prop :=
  ∀ (i : Instr) (s : State) (n : Nat), n = byteCount i s.len → i.WellFormed = true → s.busy = false →
    s.addr.toNat + n ≤ 2 ^ 32 → s.readsAnswered n →
    (∀ j < n, s.platform.regionAt (s.addr.toNat + j) = none ∨
      s.platform.regionAt (s.addr.toNat + j) = some .sideEffects) →
    ∃ b : Nat → Byte,
      (∀ j < n, s.platform.regionAt (s.addr.toNat + j) = none →
        (cellsFind s.dirty (s.addr.toNat + j) = none → b j = s.mem.read (s.addr.toNat + j)) ∧
        (∀ v, cellsFind s.dirty (s.addr.toNat + j) = some v →
          b j = v ∨ (s.platform.readPortCoherent = false ∧ b j = s.mem.read (s.addr.toNat + j)))) ∧
      (∀ j < n, s.platform.regionAt (s.addr.toNat + j) = some .sideEffects →
        ∃ k < n, b j = Config.deviceByte (s.fresh + k)) ∧
      exec i s = .next { s with
        result := compute i b n s.len s.ipsrc s.ipdst
        done := true
        err := false
        errcode := 0#4
        responses := s.responses ++ [Response.writeDone s.master]
        draws := s.draws.drop n
        fresh := s.fresh + n }

/-- The identity case (40_internet_checksum.md rule R69, corner cases): with LEN zero or negative, CSUM_INET reads nothing, cannot
raise RANGE, and leaves RESULT 0x0000 and DONE, at every ADDR and whatever the memory would answer; so does CSUM_IPHDR with
HWORDS = 0, leaving 0xFFFF (rule R70). -/
def Obligations.EmptyRangeCompletesWithoutReads : Prop :=
  (∀ s : State, s.busy = false → s.len.toInt ≤ 0 →
    exec .csumInet s = .next { s with
      result := 0x0000#16, done := true, err := false, errcode := 0#4
      responses := s.responses ++ [Response.writeDone s.master] }) ∧
  (∀ s : State, s.busy = false →
    exec (.csumIphdr 0) s = .next { s with
      result := 0xFFFF#16, done := true, err := false, errcode := 0#4
      responses := s.responses ++ [Response.writeDone s.master] })

/-- RANGE (60_exceptions.md rule R104): a legal command whose range passes the top of the address space ends with code 2, with no
memory read and RESULT unchanged; it cannot arise with a byte count of zero. -/
def Obligations.RangePastTopRaisesRange : Prop :=
  (∀ (i : Instr) (s : State), i.WellFormed = true → s.busy = false → 2 ^ 32 < s.addr.toNat + byteCount i s.len →
    exec i s = .next { s with
      done := false, err := true, errcode := 2#4, sticky := true
      responses := s.responses ++ [Response.writeDone s.master] }) ∧
  (∀ (i : Instr) (s t : State), i.WellFormed = true → s.busy = false → byteCount i s.len = 0 → exec i s = .next t →
    t.errcode ≠ 2#4) ∧
  (∀ len : Word, len.toInt ≤ 0 → byteCount .csumInet len = 0) ∧
  (∀ len : Word, byteCount (.csumIphdr 0) len = 0)

/-- BUS (60_exceptions.md rules R105, R106, R109 and R110): where some read of a valid range is answered with a bus error, by the
memory's draw or by the platform at its address, and none is left unanswered, the command ends with code 3. RESULT is left at
some free value; the engine has performed at least one and at most all of the reads. Nothing else changes. -/
def Obligations.BusErrorAnswerRaisesBus : Prop :=
  ∀ (i : Instr) (s : State) (n : Nat), n = byteCount i s.len → i.WellFormed = true → s.busy = false →
    s.addr.toNat + n ≤ 2 ^ 32 →
    (∀ k < n, (s.drawAt k).answer ≠ .unanswered) →
    (∀ j < n, s.platform.regionAt (s.addr.toNat + j) ≠ some .ownWindow ∧
      s.platform.regionAt (s.addr.toNat + j) ≠ some .unanswered) →
    ((∃ k < n, (s.drawAt k).answer = .busError) ∨
      (∃ j < n, s.platform.regionAt (s.addr.toNat + j) = some .busError)) →
    ∃ reads used, 1 ≤ reads ∧ reads ≤ n ∧ reads ≤ used ∧ used ≤ reads + 1 ∧
      exec i s = .next { s with
        result := Config.busResult (s.fresh + reads)
        done := false, err := true, errcode := 3#4, sticky := true
        responses := s.responses ++ [Response.writeDone s.master]
        draws := s.draws.drop used
        fresh := s.fresh + reads + 1 }

/-- A read that is never answered (20_memory.md rules R34 and R43; 70_reset_and_hazards.md rule R130): where the range holds an
address whose read is never answered, the engine's own window among them, or the memory leaves one of its reads unanswered, and no
read is answered with a bus error, the command stays in execution at an unanswered read: no register, flag or response changes, and
the engine takes no further step.
That a bus error elsewhere may end the command first is the model's reading (log entry 13). -/
def Obligations.UnansweredReadHangsCommand : Prop :=
  ∀ (i : Instr) (s : State) (n : Nat), n = byteCount i s.len → i.WellFormed = true → s.busy = false →
    s.addr.toNat + n ≤ 2 ^ 32 →
    (∀ k < n, (s.drawAt k).answer ≠ .busError) →
    (∀ j < n, s.platform.regionAt (s.addr.toNat + j) ≠ some .busError) →
    ((∃ k < n, (s.drawAt k).answer = .unanswered) ∨
      (∃ j < n, s.platform.regionAt (s.addr.toNat + j) = some .ownWindow ∨
        s.platform.regionAt (s.addr.toNat + j) = some .unanswered)) →
    ∃ e reads, e.stalled.isSome = true ∧ e.cmd = encode i ∧ e.issuer = s.master ∧ 1 ≤ reads ∧ reads ≤ n ∧
      exec i s = .next { s with phase := .exec e, draws := s.draws.drop reads, fresh := s.fresh + reads } ∧
      engineTurn { s with phase := .exec e, draws := s.draws.drop reads, fresh := s.fresh + reads } =
        { s with phase := .exec e, draws := s.draws.drop reads, fresh := s.fresh + reads }

/-- A CMD write that meets a command in execution, or a reset input that is asserted, is held with none of its effect
(42_host_register_access.md rule R89; 70_reset_and_hazards.md rule R121). That `exec` at a busy window holds the CMD write of the
current master is the model's reading (log entry 10), and so is that the window holds accesses while the reset input is asserted (log
entry 11). -/
def Obligations.CommandIsHeldWhileWindowIsBusy : Prop :=
  ∀ (i : Instr) (s : State), s.busy = true →
    exec i s = .next { s with held := s.held ++
      [{ access := { host := s.master, addr := s.platform.regBase, width := .word, op := .write (encode i) }, alone := true }] }

/-- No command faults and none is refused: whatever the state, a command answers a next state (60_exceptions.md rules R109 and
R112). -/
def Obligations.EveryCommandAnswersNext : Prop :=
  ∀ (i : Instr) (s : State), ∃ t, exec i s = .next t

/-- The frame of every command (10_state.md rules R21 and R25; 20_memory.md rule R35): the operand registers, data memory, the
caches and the platform are unchanged; STICKY is never cleared; the bus answers nobody, or only the issuing host; and where the
window was free, no access is held. -/
def Obligations.CommandFrame : Prop :=
  ∀ (i : Instr) (s t : State), exec i s = .next t →
    t.addr = s.addr ∧ t.len = s.len ∧ t.ipsrc = s.ipsrc ∧ t.ipdst = s.ipdst ∧
    (∀ a, t.mem.read a = s.mem.read a) ∧ t.mem = s.mem ∧ t.dirty = s.dirty ∧ t.platform = s.platform ∧
    t.script = s.script ∧ t.master = s.master ∧ t.resetAsserted = s.resetAsserted ∧
    (s.sticky = true → t.sticky = true) ∧
    (t.responses = s.responses ∨ t.responses = s.responses ++ [Response.writeDone s.master]) ∧
    (s.busy = false → t.held = s.held) ∧
    (s.busy = true → t.result = s.result ∧ t.done = s.done ∧ t.err = s.err ∧ t.sticky = s.sticky ∧
      t.errcode = s.errcode ∧ t.phase = s.phase ∧ t.responses = s.responses)

/-- RESULT, DONE, ERR and ERRCODE depend on the operands and on the bytes of the range alone, never on the start address, the order
of the reads or anything else in the state (20_memory.md rules R38 and R40; 40_internet_checksum.md rule R77; 60_exceptions.md rule
R108). STICKY is not among them: a completed command leaves it as it was. -/
def Obligations.OutcomeDependsOnRangeBytesOnly : Prop :=
  ∀ (i : Instr) (s₁ s₂ t₁ t₂ : State), i.WellFormed = true →
    s₁.busy = false → s₂.busy = false →
    s₁.len = s₂.len → s₁.ipsrc = s₂.ipsrc → s₁.ipdst = s₂.ipdst →
    s₁.addr.toNat + byteCount i s₁.len ≤ 2 ^ 32 → s₂.addr.toNat + byteCount i s₂.len ≤ 2 ^ 32 →
    s₁.rangeSettled (byteCount i s₁.len) → s₂.rangeSettled (byteCount i s₂.len) →
    s₁.readsAnswered (byteCount i s₁.len) → s₂.readsAnswered (byteCount i s₂.len) →
    (∀ j < byteCount i s₁.len, s₁.rangeByte j = s₂.rangeByte j) →
    exec i s₁ = .next t₁ → exec i s₂ = .next t₂ →
    t₁.result = t₂.result ∧ t₁.done = t₂.done ∧ t₁.err = t₂.err ∧ t₁.errcode = t₂.errcode

/-! ### Steps -/

/-- A step whose turn is a host's write of a command word to CMD, the window being free for that host, is `exec` of the decoded
command (42_host_register_access.md rule R90; 30_encoding.md rule R53). That no other agent acts between the acceptance and the end of
the command is the turn's own choice (`alone`, log entry 6). -/
def Obligations.StepRunsDecodedCommand : Prop :=
  ∀ (s : State) (h : Nat) (w : Word) (i : Instr) (rest : List Turn),
    s.script = .access { host := h, addr := s.platform.regBase, width := .word, op := .write w } true :: rest →
    s.freeFor h = true → decode w = .command i →
    step s = exec i { s with script := rest, master := h }

/-- The next step after a command word is placed runs that command: a word of the opcode table that decodes is run by `exec`. How a
word is placed is the model's choice (log entry 8). -/
def Obligations.PlacedWordIsRunNext : Prop :=
  ∀ (s : State) (nbits w : Nat) (i : Instr), decodeTableWord nbits w = some i →
    step (s.withFetchWord nbits w) = exec i { s with
      phase := .idle, resetAsserted := false, held := s.held.filter (fun x => x.access.host != 0), master := 0 }

/-- ILLEGAL_CMD (60_exceptions.md rule R103): a CMD write of a word that decodes as Illegal ends with code 1; no memory is read,
RESULT and the operand registers are unchanged, and it wins over RANGE (rule R110: ADDR and LEN are any). -/
def Obligations.IllegalWordRaisesIllegalCmd : Prop :=
  ∀ (s : State) (h : Nat) (w : Word) (why : IllegalWord) (rest : List Turn),
    s.script = .access { host := h, addr := s.platform.regBase, width := .word, op := .write w } true :: rest →
    s.freeFor h = true → decode w = .illegal why →
    step s = .next { s with
      script := rest, master := h
      done := false, err := true, errcode := 1#4, sticky := true
      responses := s.responses ++ [Response.writeDone h] }

/-- A command whose reads are steps of their own, no other agent acting meanwhile, ends where `exec` ends: after its acceptance,
its reads and its end, and at every later moment (40_internet_checksum.md rule R68; 70_reset_and_hazards.md rule R131); an illegal
word issued so ends with ILLEGAL_CMD, as one issued whole does (60_exceptions.md rules R103 and R109). The two ways to run a command
are the model's (log entry 6), and so is the step that an illegal word spends in execution (log entry 20). -/
def Obligations.CommandInStepsEndsAsExec : Prop :=
  (∀ (s : State) (h : Nat) (w : Word) (i : Instr) (k : Nat),
    s.script = [.access { host := h, addr := s.platform.regBase, width := .word, op := .write w } false] →
    s.busy = false → s.held = [] → decode w = .command i →
    byteCount i s.len + 2 ≤ k →
    Sys2Proof.core.run k s = exec i { s with script := [], master := h }) ∧
  (∀ (s : State) (h : Nat) (w : Word) (why : IllegalWord) (k : Nat),
    s.script = [.access { host := h, addr := s.platform.regBase, width := .word, op := .write w } false] →
    s.busy = false → s.held = [] → decode w = .illegal why →
    2 ≤ k →
    Sys2Proof.core.run k s = .next { s with
      script := [], master := h
      done := false, err := true, errcode := 1#4, sticky := true
      responses := s.responses ++ [Response.writeDone h] })

/-- A command in execution all of whose coming reads are answered ends within one step more than its pending reads, where no other
agent acts (70_reset_and_hazards.md rule R131, the liveness assumption). -/
def Obligations.AnsweredCommandEndsInBoundedSteps : Prop :=
  ∀ (s : State) (e : Exec), s.phase = .exec e → s.script = [] → s.resetAsserted = false → e.stalled = none →
    (∀ k < e.pending.length, (s.drawAt k).answer ≠ .unanswered) →
    (∀ i ∈ e.pending, s.platform.regionAt (e.opAddr + BitVec.ofNat 32 i).toNat ≠ some .ownWindow ∧
      s.platform.regionAt (e.opAddr + BitVec.ofNat 32 i).toNat ≠ some .unanswered) →
    ∃ k t, k ≤ e.pending.length + 1 ∧ Sys2Proof.core.run k s = .next t ∧ t.phase = .idle ∧
      t.responses = s.responses ++ [Response.writeDone e.issuer] ∧ (t.done = true ∨ t.err = true)

/-- A command held at an unanswered read leaves execution only by reset (70_reset_and_hazards.md rule R130). -/
def Obligations.HungCommandWaitsForReset : Prop :=
  ∀ (s t : State) (e : Exec), s.phase = .exec e → e.stalled.isSome = true → s.resetAsserted = false → step s = .next t →
    (t.phase = .exec e ∧ t.result = s.result ∧ t.done = s.done ∧ t.err = s.err ∧ t.errcode = s.errcode) ∨
    ((∃ rest, s.script = .resetAssert :: rest) ∧ t.engineCleared)

/-! ### Host access -/

/-- Host reads of the window (42_host_register_access.md rules R95 to R99): each slot's value, and no side effect. -/
def Obligations.HostReadsReturnSlotValues : Prop :=
  ∀ (s : State) (h : Nat) (alone : Bool) (rest : List Turn) (r : Slot),
    s.script = .access { host := h, addr := s.platform.regBase + r.offset, width := .word, op := .read } alone :: rest →
    s.freeFor h = true →
    ∃ v : Word,
      step s = .next { s with script := rest, responses := s.responses ++ [Response.readData h v] } ∧
      (r = .cmd → r.offset = 0x00 ∧ v = 0x00000000#32) ∧
      (r = .addr → r.offset = 0x04 ∧ v = s.addr) ∧
      (r = .len → r.offset = 0x08 ∧ v = s.len) ∧
      (r = .ipsrc → r.offset = 0x0C ∧ v = s.ipsrc) ∧
      (r = .ipdst → r.offset = 0x10 ∧ v = s.ipdst) ∧
      (r = .result → r.offset = 0x14 ∧ v.toNat = s.result.toNat) ∧
      (r = .status → r.offset = 0x18 ∧
        v.toNat = 16 * s.errcode.toNat + 4 * s.sticky.toNat + 2 * s.err.toNat + s.done.toNat) ∧
      (r = .reserved → r.offset = 0x1C ∧ v = 0x00000000#32)

/-- A host write of ADDR, LEN, IPSRC or IPDST sets all 32 bits of that register, and changes nothing else
(42_host_register_access.md rule R91). -/
def Obligations.HostWritesSetOperands : Prop :=
  ∀ (s : State) (h off : Nat) (v : Word) (alone : Bool) (rest : List Turn),
    s.script = .access { host := h, addr := s.platform.regBase + off, width := .word, op := .write v } alone :: rest →
    s.freeFor h = true →
    (off = 0x04 → step s = .next { s with script := rest, addr := v, responses := s.responses ++ [Response.writeDone h] }) ∧
    (off = 0x08 → step s = .next { s with script := rest, len := v, responses := s.responses ++ [Response.writeDone h] }) ∧
    (off = 0x0C → step s = .next { s with script := rest, ipsrc := v, responses := s.responses ++ [Response.writeDone h] }) ∧
    (off = 0x10 → step s = .next { s with script := rest, ipdst := v, responses := s.responses ++ [Response.writeDone h] })

/-- Host writes of RESULT and of the reserved slot have no effect, and a host write of STATUS clears STICKY where bit 2 is 1 and
changes nothing else (42_host_register_access.md rules R92, R93 and R94). -/
def Obligations.HostWritesOfOutcomeRegisters : Prop :=
  ∀ (s : State) (h off : Nat) (v : Word) (alone : Bool) (rest : List Turn),
    s.script = .access { host := h, addr := s.platform.regBase + off, width := .word, op := .write v } alone :: rest →
    s.freeFor h = true →
    (off = 0x14 ∨ off = 0x1C → step s = .next { s with script := rest, responses := s.responses ++ [Response.writeDone h] }) ∧
    (off = 0x18 → v.toNat / 4 % 2 = 1 →
      step s = .next { s with script := rest, sticky := false, responses := s.responses ++ [Response.writeDone h] }) ∧
    (off = 0x18 → v.toNat / 4 % 2 = 0 →
      step s = .next { s with script := rest, responses := s.responses ++ [Response.writeDone h] })

/-- An access that touches the window and is not a 32-bit access at a multiple of 4 within it is refused
(42_host_register_access.md rule R87). That an access that straddles the edge of the window is one access, and touches it, is the
model's reading (log entry 15); that one wider than 32 bits is refused as a narrow one is, is the model's choice (log entry 24). -/
def Obligations.MisshapenAccessIsRefused : Prop :=
  ∀ (s : State) (a : Access) (alone : Bool) (rest : List Turn),
    s.script = .access a alone :: rest →
    s.platform.regBase < a.addr + a.width.bytes → a.addr < s.platform.regBase + 32 →
    (a.width ≠ .word ∨ a.addr < s.platform.regBase ∨ (a.addr - s.platform.regBase) % 4 ≠ 0) →
    step s = .refused .accessShape

/-- While a command is in execution, or the reset input is asserted, an access to the window is held with no effect, and no held
access is dropped or overtaken: the held accesses stay, in their order (42_host_register_access.md rule R89). That the window holds
accesses while the reset input is asserted is the model's reading of rule R121 (log entry 11). -/
def Obligations.AccessesAreHeldWhileBusy : Prop :=
  (∀ (s : State) (a : Access) (alone : Bool) (rest : List Turn) (r : Slot),
    s.script = .access a alone :: rest → a.width = .word → a.addr = s.platform.regBase + r.offset → s.busy = true →
    step s = .next { s with script := rest, held := s.held ++ [{ access := a, alone := alone }] }) ∧
  (∀ s t : State, s.busy = true → step s = .next t → s.held <+: t.held)

/-- Held accesses are performed once the window is free, those of one host in the order it issued them: where a turn grants the
window, what is performed is the first held access of its host (42_host_register_access.md rules R88 and R89). The choice among the
hosts is free, written in the turn (log entry 10). -/
def Obligations.GrantPerformsOldestOfItsHost : Prop :=
  ∀ (s : State) (k : Nat) (rest : List Turn) (x : Held), s.script = .grant k :: rest → s.busy = false →
    s.held[k % s.held.length]? = some x →
    ∃ before y after, s.held = before ++ y :: after ∧ y.access.host = x.access.host ∧
      (∀ z ∈ before, z.access.host ≠ x.access.host) ∧
      step s = performAccess y.access y.alone { s with script := rest, held := before ++ after }

/-- The five pseudo-instructions of 30_encoding.md rule R62 as a host's whole sequence (42_host_register_access.md rule R100):
the three checksum sequences end with the value of RESULT in the host's hands (rule R97) and `chk` with that of STATUS (rule R98);
`clr` reads nothing and clears STICKY alone (rule R93). That no other agent acts during a CMD write is the turn's own choice
(`alone`, log entry 6). -/
def Obligations.PseudoInstructionsReturnChecksums : Prop :=
  (∀ (s : State) (h : Nat) (a n : Word) (rest : List Turn) (c : Nat),
    s.script = (Pseudo.csumInet a n).turns s.platform.regBase h ++ rest → s.freeFor h = true →
    c = inetByteCount n → a.toNat + c ≤ 2 ^ 32 →
    ({ s with addr := a } : State).rangeSettled c → s.readsAnswered c →
    ∃ t, Sys2Proof.core.run 4 s = .next t ∧ t.script = rest ∧ t.done = true ∧
      t.responses = s.responses ++ [Response.writeDone h, Response.writeDone h, Response.writeDone h,
        Response.readData h ((inetValue ({ s with addr := a } : State).rangeByte c).setWidth 32)]) ∧
  (∀ (s : State) (h : Nat) (a : Word) (hw : Nat) (rest : List Turn),
    s.script = (Pseudo.csumIphdr a hw).turns s.platform.regBase h ++ rest → s.freeFor h = true → hw ≤ 15 →
    a.toNat + 4 * hw ≤ 2 ^ 32 →
    ({ s with addr := a } : State).rangeSettled (4 * hw) → s.readsAnswered (4 * hw) →
    ∃ t, Sys2Proof.core.run 3 s = .next t ∧ t.script = rest ∧ t.done = true ∧
      t.responses = s.responses ++ [Response.writeDone h, Response.writeDone h,
        Response.readData h ((iphdrValue ({ s with addr := a } : State).rangeByte (4 * hw)).setWidth 32)]) ∧
  (∀ (s : State) (h : Nat) (a n src dst : Word) (rest : List Turn),
    s.script = (Pseudo.csumUdp a n src dst).turns s.platform.regBase h ++ rest → s.freeFor h = true →
    a.toNat + n.toNat ≤ 2 ^ 32 →
    ({ s with addr := a } : State).rangeSettled n.toNat → s.readsAnswered n.toNat →
    ∃ t, Sys2Proof.core.run 6 s = .next t ∧ t.script = rest ∧ t.done = true ∧
      t.responses = s.responses ++ [Response.writeDone h, Response.writeDone h, Response.writeDone h, Response.writeDone h,
        Response.writeDone h, Response.readData h ((udpValue ({ s with addr := a } : State).rangeByte n.toNat src dst n).setWidth 32)]) ∧
  (∀ (s : State) (h : Nat) (rest : List Turn),
    s.script = Pseudo.chk.turns s.platform.regBase h ++ rest → s.freeFor h = true →
    Sys2Proof.core.run 1 s = .next { s with
      script := rest
      responses := s.responses ++ [Response.readData h (statusWord s.done s.err s.sticky s.errcode)] }) ∧
  (∀ (s : State) (h : Nat) (rest : List Turn),
    s.script = Pseudo.clr.turns s.platform.regBase h ++ rest → s.freeFor h = true →
    Sys2Proof.core.run 1 s = .next { s with
      script := rest, sticky := false, responses := s.responses ++ [Response.writeDone h] })

/-! ### The whole machine -/

/-- The engine never writes data memory, and its only writes are to RESULT and STATUS (20_memory.md rule R35): neither a step of
the engine nor any turn at the window or at the reset input changes memory, and a step of the engine changes no operand
register. -/
def Obligations.EngineNeverWritesMemory : Prop :=
  (∀ s : State, (engineTurn s).mem = s.mem ∧ (engineTurn s).dirty = s.dirty ∧ (engineTurn s).addr = s.addr ∧
    (engineTurn s).len = s.len ∧ (engineTurn s).ipsrc = s.ipsrc ∧ (engineTurn s).ipdst = s.ipdst) ∧
  (∀ s t : State, step s = .next t →
    (∀ host a bs rest, s.script ≠ .store host a bs :: rest) →
    (∀ host a n rest, s.script ≠ .clean host a n :: rest) →
    (∀ a v rest, s.script ≠ .masterWrite a v :: rest) →
    t.mem = s.mem)

/-- An operand register keeps its value across any command: a step changes ADDR, LEN, IPSRC or IPDST only by a host's write of
that slot, presented now or held before, or by the reset input (10_state.md rule R21). -/
def Obligations.OperandsChangeOnlyByHostWriteOrReset : Prop :=
  ∀ s t : State, step s = .next t →
    (t.addr = s.addr ∧ t.len = s.len ∧ t.ipsrc = s.ipsrc ∧ t.ipdst = s.ipdst) ∨
    (∃ rest, s.script = .resetAssert :: rest ∨ s.script = .resetRelease :: rest) ∨
    (∃ (a : Access) (v : Word) (r : Slot), a.op = .write v ∧ a.target s.platform.regBase = .slot r ∧
      ((∃ alone rest, s.script = .access a alone :: rest) ∨ (∃ x ∈ s.held, x.access = a)) ∧
      ((r = .addr ∧ t.addr = v ∧ t.len = s.len ∧ t.ipsrc = s.ipsrc ∧ t.ipdst = s.ipdst) ∨
        (r = .len ∧ t.addr = s.addr ∧ t.len = v ∧ t.ipsrc = s.ipsrc ∧ t.ipdst = s.ipdst) ∨
        (r = .ipsrc ∧ t.addr = s.addr ∧ t.len = s.len ∧ t.ipsrc = v ∧ t.ipdst = s.ipdst) ∨
        (r = .ipdst ∧ t.addr = s.addr ∧ t.len = s.len ∧ t.ipsrc = s.ipsrc ∧ t.ipdst = v)))

/-- Once set, STICKY is cleared only by a host's write of STATUS with bit 2 set, or by the reset input (10_state.md rules R23 and
R27; 60_exceptions.md rule R113). -/
def Obligations.StickyIsClearedOnlyByHostOrReset : Prop :=
  ∀ s t : State, step s = .next t → s.sticky = true → t.sticky = false →
    (∃ rest, s.script = .resetAssert :: rest ∨ s.script = .resetRelease :: rest) ∨
    (∃ (a : Access) (v : Word), a.op = .write v ∧ v.getLsbD 2 = true ∧ a.target s.platform.regBase = .slot .status ∧
      ((∃ alone rest, s.script = .access a alone :: rest) ∨ (∃ x ∈ s.held, x.access = a)))

/-- The reset input (70_reset_and_hazards.md rules R121 and R122): asserted, and when it is released, every engine register is 0
and the phase is Idle; a command in execution is abandoned with no outcome and its host's CMD write completes; accesses held stay
held; no data memory is read or written. -/
def Obligations.ResetInputClearsEngine : Prop :=
  ∀ (s : State) (rest : List Turn) (answer : List Response),
    answer = (match s.phase with | .idle => [] | .exec e => [Response.writeDone e.issuer]) →
    (s.script = .resetAssert :: rest →
      step s = .next { s with
        script := rest, resetAsserted := true
        addr := 0#32, len := 0#32, ipsrc := 0#32, ipdst := 0#32, result := 0#16
        done := false, err := false, sticky := false, errcode := 0#4, phase := .idle
        responses := s.responses ++ answer }) ∧
    (s.script = .resetRelease :: rest → s.resetAsserted = true →
      step s = .next { s with
        script := rest, resetAsserted := false
        addr := 0#32, len := 0#32, ipsrc := 0#32, ipdst := 0#32, result := 0#16
        done := false, err := false, sticky := false, errcode := 0#4, phase := .idle
        responses := s.responses ++ answer })

/-- The reset values (10_state.md rule R32): every field of the engine's architectural state. -/
def Obligations.ResetStateHoldsResetValues : Prop :=
  State.reset.addr = 0#32 ∧ State.reset.len = 0#32 ∧ State.reset.ipsrc = 0#32 ∧ State.reset.ipdst = 0#32 ∧
  State.reset.result = 0#16 ∧ State.reset.done = false ∧ State.reset.err = false ∧ State.reset.sticky = false ∧
  State.reset.errcode = 0#4 ∧ State.reset.phase = .idle ∧
  State.reset.readSlot .cmd = 0#32 ∧ State.reset.readSlot .reserved = 0#32 ∧ State.reset.readSlot .status = 0#32

/-- The invariant holds right after reset. -/
def Obligations.ResetStateMeetsInvariant : Prop := State.reset.Inv

/-- Every step keeps the invariant: legal STATUS fields (10_state.md rule R23), canonical memory, latched operands equal to the
registers, every byte of the range read at most once and none outside it (20_memory.md rule R37), nothing read where the command
is known at acceptance to end with an error (60_exceptions.md rules R103 and R104), and the engine cleared while the reset input is
asserted (70_reset_and_hazards.md rule R121). That the accumulator folds to the sum of the bytes read is the model's choice (log entry
19), and so is that a command with a known error is in execution with nothing pending (log entry 20). -/
def Obligations.EveryStepKeepsInvariant : Prop :=
  ∀ s t : State, s.Inv → step s = .next t → t.Inv

/-- A machine whose written turns and held accesses keep the contract never stops, and stays such a machine: no engine command,
whatever its word, its operands and the memory's answers, ends a run (60_exceptions.md rule R109). The fault of a host's own memory
access past the top of the space, kept out here, is the model's choice (log entry 16). -/
def Obligations.ContractKeepingRunNeverStops : Prop :=
  ∀ (k : Nat) (s : State), s.inContract →
    SafeRun k s ∧ ∀ t, Sys2Proof.core.run k s = .next t → t.inContract

/-! ### Memory and ordering -/

/-- Data memory: a written byte reads as written, every other byte as before, and the canonical form is kept, so that equal
memories are equal lists (20_memory.md rules R33 and R34). -/
def Obligations.MemoryWriteThenRead : Prop :=
  (∀ (m : Memory) (a c : Nat) (v : Byte), m.wf → a < dataSpace →
    (m.write a v).wf ∧ (m.write a v).read c = if c = a then v else m.read c) ∧
  (∀ m₁ m₂ : Memory, m₁.wf → m₂.wf → (∀ a, m₁.read a = m₂.read a) → m₁ = m₂)

/-- A host's write performed to memory, and a cache clean, are what memory holds and what the read port returns, whatever
READ_PORT_COHERENT is (20_memory.md rules R46 and R52): after a store, the stored bytes; after a clean, the bytes that the host
itself would read. No other byte of memory or of the caches changes, and nothing else in the state but the turn taken. That a
performed write leaves no dirty copy is the model's choice (log entry 9), and so is that a store or a clean at an address that is
not plain memory acts on memory (log entry 14). -/
def Obligations.PerformedBytesAreSeen : Prop :=
  (∀ (s : State) (host : Nat) (a : Word) (bs : List Byte) (rest : List Turn),
    s.script = .store host a bs :: rest → a.toNat + bs.length ≤ 2 ^ 32 →
    ∃ t, step s = .next t ∧ t = { s with script := rest, mem := t.mem, dirty := t.dirty } ∧
      (∀ j, (hj : j < bs.length) → t.mem.read (a.toNat + j) = bs[j] ∧ cellsFind t.dirty (a.toNat + j) = none ∧
        ∀ d : ReadDraw, s.platform.regionAt (a.toNat + j) = none → d.answer = .data →
          t.portRead d (a + BitVec.ofNat 32 j) = .data bs[j]) ∧
      (∀ c, c < a.toNat ∨ a.toNat + bs.length ≤ c →
        t.mem.read c = s.mem.read c ∧ cellsFind t.dirty c = cellsFind s.dirty c)) ∧
  (∀ (s : State) (host : Nat) (a : Word) (n : Nat) (rest : List Turn),
    s.script = .clean host a n :: rest → a.toNat + n ≤ 2 ^ 32 → cellsSorted s.dirty →
    ∃ t, step s = .next t ∧ t = { s with script := rest, mem := t.mem, dirty := t.dirty } ∧
      (∀ j < n, t.mem.read (a.toNat + j) = s.hostByte (a.toNat + j) ∧ cellsFind t.dirty (a.toNat + j) = none ∧
        ∀ d : ReadDraw, s.platform.regionAt (a.toNat + j) = none → d.answer = .data →
          t.portRead d (a + BitVec.ofNat 32 j) = .data (s.hostByte (a.toNat + j))) ∧
      (∀ c, c < a.toNat ∨ a.toNat + n ≤ c →
        t.mem.read c = s.mem.read c ∧ cellsFind t.dirty c = cellsFind s.dirty c))

/-- What the read port returns for plain memory answered with data: with READ_PORT_COHERENT, a dirty byte's cached value; without
it, the cached value or memory's old one, as the draw says; for any other byte, memory's (20_memory.md rules R45 and R52). -/
def Obligations.PortReadOfPlainMemory : Prop :=
  ∀ (s : State) (d : ReadDraw) (a : Word), s.platform.regionAt a.toNat = none → d.answer = .data →
    (∀ v, cellsFind s.dirty a.toNat = some v → s.platform.readPortCoherent = true → s.portRead d a = .data v) ∧
    (∀ v, cellsFind s.dirty a.toNat = some v → s.platform.readPortCoherent = false →
      s.portRead d a = .data (if d.seesDirty then v else s.mem.read a.toNat)) ∧
    (cellsFind s.dirty a.toNat = none → s.portRead d a = .data (s.mem.read a.toNat))

/-- A write that lands while a command is in execution, by another bus master, by a host to memory, or by a host into its cache
(20_memory.md rules R45, R47 and R52): the bytes already read are kept, a later read of a written byte returns the byte written (for
a cached write where the port is not coherent, that byte or memory's, as the draw says), and every other read of the port is as
before. That a later read returns the byte written where a cache held it dirty rests on log entry 9, the model's choice. -/
def Obligations.WriteDuringCommandReachesLaterReadsOnly : Prop :=
  (∀ (s t : State) (e : Exec) (a : Word) (v : Byte) (rest : List Turn), s.phase = .exec e →
    s.script = .masterWrite a v :: rest → step s = .next t →
    t.phase = .exec e ∧
    (∀ d : ReadDraw, s.platform.regionAt a.toNat = none → d.answer = .data → t.portRead d a = .data v) ∧
    (∀ (d : ReadDraw) (c : Word), c ≠ a → t.portRead d c = s.portRead d c)) ∧
  (∀ (s t : State) (e : Exec) (host : Nat) (a : Word) (bs : List Byte) (rest : List Turn), s.phase = .exec e →
    s.script = .store host a bs :: rest → step s = .next t →
    t.phase = .exec e ∧
    (∀ j, (hj : j < bs.length) → ∀ d : ReadDraw, s.platform.regionAt (a.toNat + j) = none → d.answer = .data →
      t.portRead d (a + BitVec.ofNat 32 j) = .data bs[j]) ∧
    (∀ (d : ReadDraw) (c : Word), c.toNat < a.toNat ∨ a.toNat + bs.length ≤ c.toNat → t.portRead d c = s.portRead d c)) ∧
  (∀ (s t : State) (e : Exec) (host : Nat) (a : Word) (bs : List Byte) (rest : List Turn), s.phase = .exec e →
    s.script = .storeCached host a bs :: rest → step s = .next t →
    t.phase = .exec e ∧
    (∀ j, (hj : j < bs.length) → ∀ d : ReadDraw, s.platform.regionAt (a.toNat + j) = none → d.answer = .data →
      t.portRead d (a + BitVec.ofNat 32 j) =
        .data (if s.platform.readPortCoherent || d.seesDirty then bs[j] else s.mem.read (a.toNat + j))) ∧
    (∀ (d : ReadDraw) (c : Word), c.toNat < a.toNat ∨ a.toNat + bs.length ≤ c.toNat → t.portRead d c = s.portRead d c))

/-! ### Beside the statements above -/

/-- An access of a host that still has an access held is held behind it, at a free window too, so that the accesses of one host are
performed in its order (42_host_register_access.md rule R88). That it is held, rather than performed after them at once, is the
model's reading (log entry 10). -/
def Obligations.AccessIsHeldBehindItsHostsOwn : Prop :=
  ∀ (s : State) (a : Access) (alone : Bool) (rest : List Turn) (r : Slot) (x : Held),
    s.script = .access a alone :: rest → a.width = .word → a.addr = s.platform.regBase + r.offset →
    x ∈ s.held → x.access.host = a.host →
    step s = .next { s with script := rest, held := s.held ++ [{ access := a, alone := alone }] }

/-- A host write that stays in a host's cache (20_memory.md rules R46 and R52): its bytes stand dirty, memory and every other dirty
byte are as before, and the host itself reads them. That the caches of all hosts are one set is the model's choice (log entry 9). -/
def Obligations.CachedStoreStaysDirty : Prop :=
  ∀ (s : State) (host : Nat) (a : Word) (bs : List Byte) (rest : List Turn),
    s.script = .storeCached host a bs :: rest → a.toNat + bs.length ≤ 2 ^ 32 →
    ∃ t, step s = .next t ∧ t = { s with script := rest, dirty := t.dirty } ∧
      (∀ j, (hj : j < bs.length) →
        cellsFind t.dirty (a.toNat + j) = some bs[j] ∧ t.hostByte (a.toNat + j) = bs[j]) ∧
      (∀ c, c < a.toNat ∨ a.toNat + bs.length ≤ c →
        cellsFind t.dirty c = cellsFind s.dirty c ∧ t.hostByte c = s.hostByte c)

/-- A host's own read of two bytes returns them as a network-order value, the byte at the lower address the high byte
(30_encoding.md rule R61, `mrd16`; 00_scope.md rule R10), and changes nothing else. That each byte is a cache's where one holds it
dirty, and memory's otherwise, is the model's choice (log entries 9 and 14). -/
def Obligations.HostLoadIsInNetworkOrder : Prop :=
  ∀ (s : State) (host : Nat) (a : Word) (rest : List Turn),
    s.script = .load16 host a :: rest → a.toNat + 2 ≤ 2 ^ 32 →
    ∃ (v : Half) (b₀ b₁ : Byte),
      step s = .next { s with script := rest, responses := s.responses ++ [Response.loaded host v] } ∧
      v.toNat = 256 * b₀.toNat + b₁.toNat ∧
      (∀ b, cellsFind s.dirty a.toNat = some b → b₀ = b) ∧
      (cellsFind s.dirty a.toNat = none → b₀ = s.mem.read a.toNat) ∧
      (∀ b, cellsFind s.dirty (a.toNat + 1) = some b → b₁ = b) ∧
      (cellsFind s.dirty (a.toNat + 1) = none → b₁ = s.mem.read (a.toNat + 1))

/-- A host's own memory access whose bytes pass the top of the data address space, where no address exists (20_memory.md rule R33),
stops the run. The fault is the model's choice (log entry 16). -/
def Obligations.HostAccessPastTopFaults : Prop :=
  ∀ (s : State) (host : Nat) (a : Word) (bs : List Byte) (n : Nat) (rest : List Turn),
    (s.script = .store host a bs :: rest → 2 ^ 32 < a.toNat + bs.length → step s = .fault .dataAddressAbsent) ∧
    (s.script = .storeCached host a bs :: rest → 2 ^ 32 < a.toNat + bs.length → step s = .fault .dataAddressAbsent) ∧
    (s.script = .clean host a n :: rest → 2 ^ 32 < a.toNat + n → step s = .fault .dataAddressAbsent) ∧
    (s.script = .load16 host a :: rest → 2 ^ 32 < a.toNat + 2 → step s = .fault .dataAddressAbsent)
end

