-- ==== Sys2Proof/Laws/Arithmetic.lean ====
section
/-! SUPPORT. The arithmetic of the checksum: the fold, end-around carry, the sum of a range byte by byte and its changes, and the reference
datapath of 40_internet_checksum.md rules R63 to R76. -/

namespace Sys2Proof.Machine

theorem fold16_zero : fold16 0 = 0 := rfl

theorem fold16_eq_zero_iff (x : Nat) : fold16 x = 0 ↔ x = 0 := by
  unfold fold16; split <;> omega

theorem fold16_pos {x : Nat} (h : 0 < x) : 0 < fold16 x := by
  have := fold16_eq_zero_iff x; omega

theorem fold16_le (x : Nat) : fold16 x ≤ 0xFFFF := by
  unfold fold16; split <;> omega

theorem fold16_mod (x : Nat) : fold16 x % 0xFFFF = x % 0xFFFF := by
  unfold fold16; split <;> omega

theorem fold16_congr {x y : Nat} (h : x % 0xFFFF = y % 0xFFFF) (h0 : x = 0 ↔ y = 0) : fold16 x = fold16 y := by
  unfold fold16; split <;> split <;> omega

theorem fold16_add (x y : Nat) : fold16 (x + y) = fold16 (fold16 x + fold16 y) := by
  apply fold16_congr
  · have := fold16_mod x; have := fold16_mod y; omega
  · have := fold16_eq_zero_iff x; have := fold16_eq_zero_iff y; omega

theorem fold16_add_congr {x x' y y' : Nat} (hx : fold16 x = fold16 x') (hy : fold16 y = fold16 y') :
    fold16 (x + y) = fold16 (x' + y') := by
  rw [fold16_add, hx, hy, ← fold16_add]

theorem fold16_self (x : Nat) : fold16 (fold16 x) = fold16 x :=
  fold16_congr (fold16_mod x) (fold16_eq_zero_iff x)

theorem fold16_unique {x y : Nat} (hx : 0 < x) (hy : 0 < y) (hle : y ≤ 0xFFFF) (h : y % 0xFFFF = x % 0xFFFF) : fold16 x = y := by
  unfold fold16; split <;> omega

theorem fold16_of_le {x : Nat} (h : x ≤ 0xFFFF) : fold16 x = x := by
  unfold fold16; split <;> omega

theorem fold16_complete (x c : Nat) (h : c = 0xFFFF - fold16 x) : fold16 (x + c) = 0xFFFF := by
  have := fold16_mod x; have := fold16_le x; have := fold16_eq_zero_iff x
  apply fold16_unique <;> omega

theorem halfAdd_fold16 (x : Nat) : fold16 (halfAdd 16 x) = fold16 x := by
  unfold halfAdd
  apply fold16_congr <;> omega

theorem iter_halfAdd_fold16 (k x : Nat) : fold16 ((halfAdd 16)^[k] x) = fold16 x := by
  induction k generalizing x with
  | zero => rfl
  | succ k ih => rw [Function.iterate_succ_apply, ih, halfAdd_fold16]

theorem eac_toNat_mod (x w : BitVec 64) : (eac x w).toNat % 0xFFFF = (x.toNat + w.toNat) % 0xFFFF := by
  unfold eac
  have hx := x.isLt; have hw := w.isLt
  split <;> rename_i h <;> simp only [BitVec.lt_def, BitVec.toNat_add, BitVec.toNat_ofNat] at h ⊢ <;> omega

theorem eac_eq_zero (x w : BitVec 64) : (eac x w).toNat = 0 ↔ x.toNat + w.toNat = 0 := by
  unfold eac
  have hx := x.isLt; have hw := w.isLt
  split <;> rename_i h <;> simp only [BitVec.lt_def, BitVec.toNat_add, BitVec.toNat_ofNat] at h ⊢ <;> omega

theorem fold16_eac (x w : BitVec 64) : fold16 (eac x w).toNat = fold16 (x.toNat + w.toNat) :=
  fold16_congr (eac_toNat_mod x w) (eac_eq_zero x w)

theorem rangeSum_succ_even (b : Nat → Byte) (m : Nat) :
    rangeSum b (2 * m + 1) = rangeSum b (2 * m) + 256 * (b (2 * m)).toNat := by
  unfold rangeSum
  rw [show (2 * m + 1 + 1) / 2 = m + 1 by omega, show (2 * m + 1) / 2 = m by omega, List.range_succ, List.map_append,
    List.sum_append]
  congr 1
  · congr 1
    apply List.map_congr_left
    intro k hk
    have := List.mem_range.mp hk
    simp only [unit]; rw [if_pos (by omega), if_pos (by omega)]
  · simp [unit]

theorem rangeSum_succ_odd (b : Nat → Byte) (m : Nat) :
    rangeSum b (2 * m + 2) = rangeSum b (2 * m + 1) + (b (2 * m + 1)).toNat := by
  unfold rangeSum
  rw [show (2 * m + 2 + 1) / 2 = m + 1 by omega, show (2 * m + 1 + 1) / 2 = m + 1 by omega, List.range_succ, List.map_append,
    List.sum_append, List.map_append, List.sum_append, Nat.add_assoc]
  congr 1
  · congr 1
    apply List.map_congr_left
    intro k hk
    have := List.mem_range.mp hk
    simp only [unit]; rw [if_pos (by omega), if_pos (by omega)]
  · simp [unit]

theorem rangeSum_succ (b : Nat → Byte) (n : Nat) : rangeSum b (n + 1) = rangeSum b n + offsetWeight n (b n) := by
  rcases Nat.even_or_odd' n with ⟨m, rfl | rfl⟩
  · rw [rangeSum_succ_even, offsetWeight, if_pos (by omega)]
  · rw [rangeSum_succ_odd, offsetWeight, if_neg (by omega)]

theorem rangeSum_zero (b : Nat → Byte) : rangeSum b 0 = 0 := rfl

theorem rangeSum_congr {b b' : Nat → Byte} {n : Nat} (h : ∀ i < n, b i = b' i) : rangeSum b n = rangeSum b' n := by
  induction n with
  | zero => rfl
  | succ n ih => rw [rangeSum_succ, rangeSum_succ, ih fun i hi => h i (by omega), h n (by omega)]

theorem compute_congr (i : Instr) {b b' : Nat → Byte} {n : Nat} (l s d : Word) (h : ∀ j < n, b j = b' j) :
    compute i b n l s d = compute i b' n l s d := by
  cases i <;> simp only [compute, inetValue, iphdrValue, udpValue, ocsum, rangeSum_congr h]

theorem offsetWeight_lt (i : Nat) (v : Byte) : offsetWeight i v < 65536 := by
  have := v.isLt; unfold offsetWeight; split <;> omega

/-- The sum of a range with one byte changed. -/
theorem rangeSum_update {b b' : Nat → Byte} {n i : Nat} (hi : i < n) (h : ∀ k, k ≠ i → b' k = b k) :
    rangeSum b' n + offsetWeight i (b i) = rangeSum b n + offsetWeight i (b' i) := by
  induction n with
  | zero => omega
  | succ n ih =>
    rw [rangeSum_succ, rangeSum_succ]
    by_cases hin : i = n
    · subst hin
      rw [rangeSum_congr (b := b') (b' := b) (n := i) fun k hk => h k (by omega)]; omega
    · have := ih (by omega); rw [h n (by omega)]; omega

theorem rangeSum_shift (b : Nat → Byte) (n : Nat) :
    rangeSum b (n + 2) = 256 * (b 0).toNat + (b 1).toNat + rangeSum (fun i => b (i + 2)) n := by
  induction n with
  | zero => simp [rangeSum, unit]
  | succ n ih =>
    rw [rangeSum_succ b (n + 2), ih, rangeSum_succ]
    have : offsetWeight (n + 2) (b (n + 2)) = offsetWeight n (b (n + 2)) := by
      unfold offsetWeight; congr 1; simp
    omega

theorem toNat_ofNat16 {x : Nat} (h : x ≤ 0xFFFF) : (BitVec.ofNat 16 x).toNat = x := by
  simp; omega

theorem ocsum_toNat (b : Nat → Byte) (n : Nat) : (ocsum b n).toNat = fold16 (rangeSum b n) := by
  have := fold16_le (rangeSum b n)
  simp [ocsum]; omega

theorem swap16_toNat (v : Half) : (swap16 v).toNat = v.toNat % 256 * 256 + v.toNat / 256 := by
  have := v.isLt
  simp only [swap16, BitVec.toNat_append, BitVec.extractLsb'_toNat, Nat.shiftRight_eq_div_pow]
  rw [← Nat.shiftLeft_add_eq_or_of_lt (by omega), Nat.shiftLeft_eq]; omega

theorem complement16_toNat (v : Half) : (complement16 v).toNat = 0xFFFF - v.toNat := by
  have : complement16 v = ~~~v := BitVec.xor_allOnes
  rw [this, BitVec.toNat_not]

theorem networkHalf_toNat (b0 b1 : Byte) : (networkHalf b0 b1).toNat = 256 * b0.toNat + b1.toNat := by
  have := b0.isLt; have := b1.isLt
  simp only [networkHalf, BitVec.toNat_append]
  rw [← Nat.shiftLeft_add_eq_or_of_lt (by omega), Nat.shiftLeft_eq]; omega

theorem iphdrValue_toNat (b : Nat → Byte) (n : Nat) : (iphdrValue b n).toNat = 0xFFFF - fold16 (rangeSum b n) := by
  rw [iphdrValue, complement16_toNat, ocsum_toNat]

theorem udpValue_toNat (b : Nat → Byte) (n : Nat) (s d l : Word) : (udpValue b n s d l).toNat = 0xFFFF - fold16 (rangeSum b n + pseudo s d (lengthWord l)) := by
  rw [udpValue, complement16_toNat, toNat_ofNat16 (fold16_le _)]

theorem udpSum (a : Word) : addressSum a = a.toNat / 65536 + a.toNat % 65536 := by
  have := a.isLt
  simp [addressSum, BitVec.extractLsb'_toNat, Nat.shiftRight_eq_div_pow]; omega

theorem rangeSum_fill {b b' : Nat → Byte} {n j : Nat} (hj : 2 * j + 1 < n) (h0 : b (2 * j) = 0#8) (h1 : b (2 * j + 1) = 0#8)
    (h : ∀ i, i ≠ 2 * j → i ≠ 2 * j + 1 → b' i = b i) :
    rangeSum b' n = rangeSum b n + (networkHalf (b' (2 * j)) (b' (2 * j + 1))).toNat := by
  let c : Nat → Byte := fun i => if i = 2 * j then b' i else b i
  have e1 := rangeSum_update (b := b) (b' := c) (n := n) (i := 2 * j) (by omega) (fun k hk => by simp [c, hk])
  have e2 := rangeSum_update (b := c) (b' := b') (n := n) (i := 2 * j + 1) (by omega) (fun k hk => by
    by_cases hk2 : k = 2 * j
    · simp [c, hk2]
    · simp [c, hk2, h k hk2 hk])
  have w0 : offsetWeight (2 * j) (b (2 * j)) = 0 := by rw [h0]; simp [offsetWeight]
  have w1 : offsetWeight (2 * j + 1) (c (2 * j + 1)) = 0 := by simp [c, h1, offsetWeight]
  have w2 : offsetWeight (2 * j) (c (2 * j)) = 256 * (b' (2 * j)).toNat := by simp [c, offsetWeight]
  have w3 : offsetWeight (2 * j + 1) (b' (2 * j + 1)) = (b' (2 * j + 1)).toNat := by
    unfold offsetWeight; rw [if_neg (by omega)]
  rw [networkHalf_toNat]; omega

theorem accPair_toNat (b0 b1 : Byte) : (accPair b0 b1).toNat = 256 * b0.toNat + b1.toNat := by
  have := b0.isLt; have := b1.isLt
  simp only [accPair, BitVec.toNat_setWidth, BitVec.toNat_append]
  rw [← Nat.shiftLeft_add_eq_or_of_lt (by omega), Nat.shiftLeft_eq]; omega

theorem accChunk_toNat (b0 b1 b2 b3 b4 b5 b6 b7 : Byte) : (accChunk b0 b1 b2 b3 b4 b5 b6 b7).toNat =
    ((((((b0.toNat * 256 + b1.toNat) * 256 + b2.toNat) * 256 + b3.toNat) * 256 + b4.toNat) * 256 + b5.toNat) * 256 + b6.toNat) * 256 + b7.toNat := by
  simp only [accChunk, BitVec.toNat_append]
  rw [← Nat.shiftLeft_add_eq_or_of_lt b1.isLt, ← Nat.shiftLeft_add_eq_or_of_lt b2.isLt, ← Nat.shiftLeft_add_eq_or_of_lt b3.isLt,
    ← Nat.shiftLeft_add_eq_or_of_lt b4.isLt, ← Nat.shiftLeft_add_eq_or_of_lt b5.isLt, ← Nat.shiftLeft_add_eq_or_of_lt b6.isLt,
    ← Nat.shiftLeft_add_eq_or_of_lt b7.isLt]
  simp only [Nat.shiftLeft_eq]

/-- The sum of a list of bytes. -/
def listSum (bs : List Byte) : Nat := rangeSum (fun i => bs.getD i 0) bs.length

theorem listSum_nil : listSum [] = 0 := rfl

theorem listSum_single (b : Byte) : listSum [b] = 256 * b.toNat := by simp [listSum, rangeSum, unit]

theorem listSum_cons2 (b0 b1 : Byte) (rest : List Byte) : listSum (b0 :: b1 :: rest) = 256 * b0.toNat + b1.toNat + listSum rest := by
  unfold listSum
  rw [List.length_cons, List.length_cons, rangeSum_shift]; simp

theorem fold16_accTail (bs : List Byte) (acc : BitVec 64) : fold16 (accTail acc bs).toNat = fold16 (acc.toNat + listSum bs) := by
  fun_induction accTail acc bs with
  | case1 acc => simp [listSum_nil]
  | case2 acc b0 => rw [fold16_eac, accPair_toNat, listSum_single]; simp
  | case3 acc b0 b1 rest ih =>
    rw [ih, listSum_cons2, ← Nat.add_assoc]
    exact fold16_add_congr (by rw [fold16_eac, accPair_toNat]) rfl

theorem fold16_accChunks (bs : List Byte) (acc : BitVec 64) : fold16 (accChunks acc bs).toNat = fold16 (acc.toNat + listSum bs) := by
  fun_induction accChunks acc bs with
  | case1 acc b0 b1 b2 b3 b4 b5 b6 b7 rest ih =>
    rw [ih, listSum_cons2, listSum_cons2, listSum_cons2, listSum_cons2]
    simp only [← Nat.add_assoc]
    refine fold16_add_congr ?_ rfl
    rw [fold16_eac, accChunk_toNat]
    apply fold16_congr <;> omega
  | case2 acc bs h => exact fold16_accTail bs acc

theorem foldAcc_eq (acc : BitVec 64) : foldAcc acc = BitVec.ofNat 16 (fold16 acc.toNat) := by
  have h := acc.isLt
  have a32 : ∀ x : Nat, fold16 (halfAdd 32 x) = fold16 x := fun x => by unfold halfAdd; apply fold16_congr <;> omega
  have w32 : ∀ (k x : Nat), fold16 (foldWhile 32 k x) = fold16 x := by
    intro k; induction k with
    | zero => intro x; rfl
    | succ k ih => intro x; unfold foldWhile; split; rfl; rw [ih, a32]
  have w16 : ∀ (k x : Nat), fold16 (foldWhile 16 k x) = fold16 x := by
    intro k; induction k with
    | zero => intro x; rfl
    | succ k ih => intro x; unfold foldWhile; split; rfl; rw [ih, halfAdd_fold16]
  have l32 : foldWhile 32 3 acc.toNat < 2 ^ 32 := by
    have h1 : halfAdd 32 acc.toNat ≤ 2 ^ 33 - 2 := by unfold halfAdd; omega
    have h2 : halfAdd 32 (halfAdd 32 acc.toNat) < 2 ^ 32 := by
      generalize halfAdd 32 acc.toNat = y at h1
      unfold halfAdd; omega
    unfold foldWhile; split
    · assumption
    · unfold foldWhile; split
      · assumption
      · unfold foldWhile; split
        · assumption
        · omega
  have l16 : ∀ x < 2 ^ 32, foldWhile 16 3 x < 2 ^ 16 := by
    intro x hx
    have h1 : halfAdd 16 x ≤ 2 ^ 17 - 2 := by unfold halfAdd; omega
    have h2 : halfAdd 16 (halfAdd 16 x) < 2 ^ 16 := by
      generalize halfAdd 16 x = y at h1
      unfold halfAdd; omega
    unfold foldWhile; split
    · assumption
    · unfold foldWhile; split
      · assumption
      · unfold foldWhile; split
        · assumption
        · omega
  unfold foldAcc
  congr 1
  rw [← w32 3 acc.toNat, ← w16 3 (foldWhile 32 3 acc.toNat), fold16_of_le]
  have := l16 _ l32; omega

end Sys2Proof.Machine
end

