-- ==== Sys2Proof/Laws/Decode.lean ====
section
/-! SUPPORT. The decoder over the number that a command word is (30_encoding.md rules R54, R57 and R58). -/

namespace Sys2Proof.Machine

theorem fields_toNat (w : Word) : (opField w).toNat = w.toNat % 16 ∧ (hwordsField w).toNat = w.toNat / 16 % 16 ∧ (rsvdField w).toNat = w.toNat / 256 := by
  have := w.isLt
  simp only [opField, hwordsField, rsvdField, BitVec.extractLsb'_toNat, Nat.shiftRight_eq_div_pow]
  refine ⟨by simp, by simp, ?_⟩
  exact Nat.mod_eq_of_lt (by omega)

theorem bitVec4_eq_iff (x : BitVec 4) (k : Nat) (hk : k < 16) : x = BitVec.ofNat 4 k ↔ x.toNat = k := by
  constructor
  · rintro rfl; simp; omega
  · intro h; apply BitVec.eq_of_toNat_eq; simp; omega

theorem decode_spec (w : Word) : decode w =
    if w.toNat / 256 ≠ 0 then .illegal .reservedBits
    else if w.toNat % 16 = 1 ∧ w.toNat / 16 % 16 = 0 then .command .csumInet
    else if w.toNat % 16 = 2 then .command (.csumIphdr (w.toNat / 16 % 16))
    else if w.toNat % 16 = 3 ∧ w.toNat / 16 % 16 = 0 then .command .csumUdp
    else if w.toNat % 16 = 1 ∨ w.toNat % 16 = 3 then .illegal .strayHwords
    else .illegal .reservedOp := by
  obtain ⟨h1, h2, h3⟩ := fields_toNat w
  have r : rsvdField w ≠ 0 ↔ w.toNat / 256 ≠ 0 := by rw [← h3]; simp [BitVec.toNat_eq]
  have o1 : opField w = 0x1 ↔ w.toNat % 16 = 1 := by rw [← h1]; exact bitVec4_eq_iff _ 1 (by omega)
  have o2 : opField w = 0x2 ↔ w.toNat % 16 = 2 := by rw [← h1]; exact bitVec4_eq_iff _ 2 (by omega)
  have o3 : opField w = 0x3 ↔ w.toNat % 16 = 3 := by rw [← h1]; exact bitVec4_eq_iff _ 3 (by omega)
  have hz : hwordsField w = 0 ↔ w.toNat / 16 % 16 = 0 := by rw [← h2]; exact bitVec4_eq_iff _ 0 (by omega)
  unfold decode
  simp only [r, o1, o2, o3, hz, h2]

theorem and_mask (w : Word) : (w &&& 0xFFFFFF0F#32).toNat = w.toNat / 256 * 256 + w.toNat % 16 := by
  have hw := w.isLt
  have h1 : w &&& 0xFFFFFF0F#32 = BitVec.setWidth 32 (w.extractLsb' 8 24 ++ 0#4 ++ w.extractLsb' 0 4) := by
    apply BitVec.eq_of_getLsbD_eq
    intro i hi
    simp only [BitVec.getLsbD_setWidth, BitVec.getLsbD_append, BitVec.getLsbD_extractLsb', BitVec.getLsbD_and]
    interval_cases i <;> simp
  rw [h1]
  simp only [BitVec.toNat_setWidth, BitVec.toNat_append, BitVec.extractLsb'_toNat, Nat.shiftRight_eq_div_pow]
  rw [← Nat.shiftLeft_add_eq_or_of_lt (by omega), ← Nat.shiftLeft_add_eq_or_of_lt (by simp), Nat.shiftLeft_eq, Nat.shiftLeft_eq]
  simp; omega

theorem decode_encode {i : Instr} (h : i.WellFormed = true) : decode (encode i) = .command i := by
  cases i
  · exact Laws.RoundTrip.csumInet h
  · exact Laws.RoundTrip.csumIphdr _ h
  · exact Laws.RoundTrip.csumUdp h

end Sys2Proof.Machine
end

