-- ==== Sys2Proof/Laws/State.lean ====
section
/-! SUPPORT. What each small update of the state does to each field: one lemma a field an update, so that no proof unfolds a
record update. -/

namespace Sys2Proof.Machine

/-! ### respond -/

@[simp] theorem State.respond_addr (r : Response) (s : State) : (s.respond r).addr = s.addr := rfl
@[simp] theorem State.respond_len (r : Response) (s : State) : (s.respond r).len = s.len := rfl
@[simp] theorem State.respond_ipsrc (r : Response) (s : State) : (s.respond r).ipsrc = s.ipsrc := rfl
@[simp] theorem State.respond_ipdst (r : Response) (s : State) : (s.respond r).ipdst = s.ipdst := rfl
@[simp] theorem State.respond_result (r : Response) (s : State) : (s.respond r).result = s.result := rfl
@[simp] theorem State.respond_done (r : Response) (s : State) : (s.respond r).done = s.done := rfl
@[simp] theorem State.respond_err (r : Response) (s : State) : (s.respond r).err = s.err := rfl
@[simp] theorem State.respond_sticky (r : Response) (s : State) : (s.respond r).sticky = s.sticky := rfl
@[simp] theorem State.respond_errcode (r : Response) (s : State) : (s.respond r).errcode = s.errcode := rfl
@[simp] theorem State.respond_phase (r : Response) (s : State) : (s.respond r).phase = s.phase := rfl
@[simp] theorem State.respond_resetAsserted (r : Response) (s : State) : (s.respond r).resetAsserted = s.resetAsserted := rfl
@[simp] theorem State.respond_master (r : Response) (s : State) : (s.respond r).master = s.master := rfl
@[simp] theorem State.respond_held (r : Response) (s : State) : (s.respond r).held = s.held := rfl
@[simp] theorem State.respond_responses (r : Response) (s : State) : (s.respond r).responses = s.responses ++ [r] := rfl
@[simp] theorem State.respond_mem (r : Response) (s : State) : (s.respond r).mem = s.mem := rfl
@[simp] theorem State.respond_dirty (r : Response) (s : State) : (s.respond r).dirty = s.dirty := rfl
@[simp] theorem State.respond_platform (r : Response) (s : State) : (s.respond r).platform = s.platform := rfl
@[simp] theorem State.respond_script (r : Response) (s : State) : (s.respond r).script = s.script := rfl
@[simp] theorem State.respond_draws (r : Response) (s : State) : (s.respond r).draws = s.draws := rfl
@[simp] theorem State.respond_fresh (r : Response) (s : State) : (s.respond r).fresh = s.fresh := rfl

/-! ### holdAccess -/

@[simp] theorem State.holdAccess_addr (h : Held) (s : State) : (s.holdAccess h).addr = s.addr := rfl
@[simp] theorem State.holdAccess_len (h : Held) (s : State) : (s.holdAccess h).len = s.len := rfl
@[simp] theorem State.holdAccess_ipsrc (h : Held) (s : State) : (s.holdAccess h).ipsrc = s.ipsrc := rfl
@[simp] theorem State.holdAccess_ipdst (h : Held) (s : State) : (s.holdAccess h).ipdst = s.ipdst := rfl
@[simp] theorem State.holdAccess_result (h : Held) (s : State) : (s.holdAccess h).result = s.result := rfl
@[simp] theorem State.holdAccess_done (h : Held) (s : State) : (s.holdAccess h).done = s.done := rfl
@[simp] theorem State.holdAccess_err (h : Held) (s : State) : (s.holdAccess h).err = s.err := rfl
@[simp] theorem State.holdAccess_sticky (h : Held) (s : State) : (s.holdAccess h).sticky = s.sticky := rfl
@[simp] theorem State.holdAccess_errcode (h : Held) (s : State) : (s.holdAccess h).errcode = s.errcode := rfl
@[simp] theorem State.holdAccess_phase (h : Held) (s : State) : (s.holdAccess h).phase = s.phase := rfl
@[simp] theorem State.holdAccess_resetAsserted (h : Held) (s : State) : (s.holdAccess h).resetAsserted = s.resetAsserted := rfl
@[simp] theorem State.holdAccess_master (h : Held) (s : State) : (s.holdAccess h).master = s.master := rfl
@[simp] theorem State.holdAccess_held (h : Held) (s : State) : (s.holdAccess h).held = s.held ++ [h] := rfl
@[simp] theorem State.holdAccess_responses (h : Held) (s : State) : (s.holdAccess h).responses = s.responses := rfl
@[simp] theorem State.holdAccess_mem (h : Held) (s : State) : (s.holdAccess h).mem = s.mem := rfl
@[simp] theorem State.holdAccess_dirty (h : Held) (s : State) : (s.holdAccess h).dirty = s.dirty := rfl
@[simp] theorem State.holdAccess_platform (h : Held) (s : State) : (s.holdAccess h).platform = s.platform := rfl
@[simp] theorem State.holdAccess_script (h : Held) (s : State) : (s.holdAccess h).script = s.script := rfl
@[simp] theorem State.holdAccess_draws (h : Held) (s : State) : (s.holdAccess h).draws = s.draws := rfl
@[simp] theorem State.holdAccess_fresh (h : Held) (s : State) : (s.holdAccess h).fresh = s.fresh := rfl

/-! ### setPhase -/

@[simp] theorem State.setPhase_addr (p : Phase) (s : State) : (s.setPhase p).addr = s.addr := rfl
@[simp] theorem State.setPhase_len (p : Phase) (s : State) : (s.setPhase p).len = s.len := rfl
@[simp] theorem State.setPhase_ipsrc (p : Phase) (s : State) : (s.setPhase p).ipsrc = s.ipsrc := rfl
@[simp] theorem State.setPhase_ipdst (p : Phase) (s : State) : (s.setPhase p).ipdst = s.ipdst := rfl
@[simp] theorem State.setPhase_result (p : Phase) (s : State) : (s.setPhase p).result = s.result := rfl
@[simp] theorem State.setPhase_done (p : Phase) (s : State) : (s.setPhase p).done = s.done := rfl
@[simp] theorem State.setPhase_err (p : Phase) (s : State) : (s.setPhase p).err = s.err := rfl
@[simp] theorem State.setPhase_sticky (p : Phase) (s : State) : (s.setPhase p).sticky = s.sticky := rfl
@[simp] theorem State.setPhase_errcode (p : Phase) (s : State) : (s.setPhase p).errcode = s.errcode := rfl
@[simp] theorem State.setPhase_phase (p : Phase) (s : State) : (s.setPhase p).phase = p := rfl
@[simp] theorem State.setPhase_resetAsserted (p : Phase) (s : State) : (s.setPhase p).resetAsserted = s.resetAsserted := rfl
@[simp] theorem State.setPhase_master (p : Phase) (s : State) : (s.setPhase p).master = s.master := rfl
@[simp] theorem State.setPhase_held (p : Phase) (s : State) : (s.setPhase p).held = s.held := rfl
@[simp] theorem State.setPhase_responses (p : Phase) (s : State) : (s.setPhase p).responses = s.responses := rfl
@[simp] theorem State.setPhase_mem (p : Phase) (s : State) : (s.setPhase p).mem = s.mem := rfl
@[simp] theorem State.setPhase_dirty (p : Phase) (s : State) : (s.setPhase p).dirty = s.dirty := rfl
@[simp] theorem State.setPhase_platform (p : Phase) (s : State) : (s.setPhase p).platform = s.platform := rfl
@[simp] theorem State.setPhase_script (p : Phase) (s : State) : (s.setPhase p).script = s.script := rfl
@[simp] theorem State.setPhase_draws (p : Phase) (s : State) : (s.setPhase p).draws = s.draws := rfl
@[simp] theorem State.setPhase_fresh (p : Phase) (s : State) : (s.setPhase p).fresh = s.fresh := rfl

/-! ### setResult -/

@[simp] theorem State.setResult_addr (v : Half) (s : State) : (s.setResult v).addr = s.addr := rfl
@[simp] theorem State.setResult_len (v : Half) (s : State) : (s.setResult v).len = s.len := rfl
@[simp] theorem State.setResult_ipsrc (v : Half) (s : State) : (s.setResult v).ipsrc = s.ipsrc := rfl
@[simp] theorem State.setResult_ipdst (v : Half) (s : State) : (s.setResult v).ipdst = s.ipdst := rfl
@[simp] theorem State.setResult_result (v : Half) (s : State) : (s.setResult v).result = v := rfl
@[simp] theorem State.setResult_done (v : Half) (s : State) : (s.setResult v).done = s.done := rfl
@[simp] theorem State.setResult_err (v : Half) (s : State) : (s.setResult v).err = s.err := rfl
@[simp] theorem State.setResult_sticky (v : Half) (s : State) : (s.setResult v).sticky = s.sticky := rfl
@[simp] theorem State.setResult_errcode (v : Half) (s : State) : (s.setResult v).errcode = s.errcode := rfl
@[simp] theorem State.setResult_phase (v : Half) (s : State) : (s.setResult v).phase = s.phase := rfl
@[simp] theorem State.setResult_resetAsserted (v : Half) (s : State) : (s.setResult v).resetAsserted = s.resetAsserted := rfl
@[simp] theorem State.setResult_master (v : Half) (s : State) : (s.setResult v).master = s.master := rfl
@[simp] theorem State.setResult_held (v : Half) (s : State) : (s.setResult v).held = s.held := rfl
@[simp] theorem State.setResult_responses (v : Half) (s : State) : (s.setResult v).responses = s.responses := rfl
@[simp] theorem State.setResult_mem (v : Half) (s : State) : (s.setResult v).mem = s.mem := rfl
@[simp] theorem State.setResult_dirty (v : Half) (s : State) : (s.setResult v).dirty = s.dirty := rfl
@[simp] theorem State.setResult_platform (v : Half) (s : State) : (s.setResult v).platform = s.platform := rfl
@[simp] theorem State.setResult_script (v : Half) (s : State) : (s.setResult v).script = s.script := rfl
@[simp] theorem State.setResult_draws (v : Half) (s : State) : (s.setResult v).draws = s.draws := rfl
@[simp] theorem State.setResult_fresh (v : Half) (s : State) : (s.setResult v).fresh = s.fresh := rfl

/-! ### spendFresh -/

@[simp] theorem State.spendFresh_addr (s : State) : s.spendFresh.addr = s.addr := rfl
@[simp] theorem State.spendFresh_len (s : State) : s.spendFresh.len = s.len := rfl
@[simp] theorem State.spendFresh_ipsrc (s : State) : s.spendFresh.ipsrc = s.ipsrc := rfl
@[simp] theorem State.spendFresh_ipdst (s : State) : s.spendFresh.ipdst = s.ipdst := rfl
@[simp] theorem State.spendFresh_result (s : State) : s.spendFresh.result = s.result := rfl
@[simp] theorem State.spendFresh_done (s : State) : s.spendFresh.done = s.done := rfl
@[simp] theorem State.spendFresh_err (s : State) : s.spendFresh.err = s.err := rfl
@[simp] theorem State.spendFresh_sticky (s : State) : s.spendFresh.sticky = s.sticky := rfl
@[simp] theorem State.spendFresh_errcode (s : State) : s.spendFresh.errcode = s.errcode := rfl
@[simp] theorem State.spendFresh_phase (s : State) : s.spendFresh.phase = s.phase := rfl
@[simp] theorem State.spendFresh_resetAsserted (s : State) : s.spendFresh.resetAsserted = s.resetAsserted := rfl
@[simp] theorem State.spendFresh_master (s : State) : s.spendFresh.master = s.master := rfl
@[simp] theorem State.spendFresh_held (s : State) : s.spendFresh.held = s.held := rfl
@[simp] theorem State.spendFresh_responses (s : State) : s.spendFresh.responses = s.responses := rfl
@[simp] theorem State.spendFresh_mem (s : State) : s.spendFresh.mem = s.mem := rfl
@[simp] theorem State.spendFresh_dirty (s : State) : s.spendFresh.dirty = s.dirty := rfl
@[simp] theorem State.spendFresh_platform (s : State) : s.spendFresh.platform = s.platform := rfl
@[simp] theorem State.spendFresh_script (s : State) : s.spendFresh.script = s.script := rfl
@[simp] theorem State.spendFresh_draws (s : State) : s.spendFresh.draws = s.draws := rfl
@[simp] theorem State.spendFresh_fresh (s : State) : s.spendFresh.fresh = s.fresh + 1 := rfl

/-! ### spendDraw -/

@[simp] theorem State.spendDraw_addr (s : State) : s.spendDraw.addr = s.addr := rfl
@[simp] theorem State.spendDraw_len (s : State) : s.spendDraw.len = s.len := rfl
@[simp] theorem State.spendDraw_ipsrc (s : State) : s.spendDraw.ipsrc = s.ipsrc := rfl
@[simp] theorem State.spendDraw_ipdst (s : State) : s.spendDraw.ipdst = s.ipdst := rfl
@[simp] theorem State.spendDraw_result (s : State) : s.spendDraw.result = s.result := rfl
@[simp] theorem State.spendDraw_done (s : State) : s.spendDraw.done = s.done := rfl
@[simp] theorem State.spendDraw_err (s : State) : s.spendDraw.err = s.err := rfl
@[simp] theorem State.spendDraw_sticky (s : State) : s.spendDraw.sticky = s.sticky := rfl
@[simp] theorem State.spendDraw_errcode (s : State) : s.spendDraw.errcode = s.errcode := rfl
@[simp] theorem State.spendDraw_phase (s : State) : s.spendDraw.phase = s.phase := rfl
@[simp] theorem State.spendDraw_resetAsserted (s : State) : s.spendDraw.resetAsserted = s.resetAsserted := rfl
@[simp] theorem State.spendDraw_master (s : State) : s.spendDraw.master = s.master := rfl
@[simp] theorem State.spendDraw_held (s : State) : s.spendDraw.held = s.held := rfl
@[simp] theorem State.spendDraw_responses (s : State) : s.spendDraw.responses = s.responses := rfl
@[simp] theorem State.spendDraw_mem (s : State) : s.spendDraw.mem = s.mem := rfl
@[simp] theorem State.spendDraw_dirty (s : State) : s.spendDraw.dirty = s.dirty := rfl
@[simp] theorem State.spendDraw_platform (s : State) : s.spendDraw.platform = s.platform := rfl
@[simp] theorem State.spendDraw_script (s : State) : s.spendDraw.script = s.script := rfl
@[simp] theorem State.spendDraw_draws (s : State) : s.spendDraw.draws = s.draws.tail := rfl
@[simp] theorem State.spendDraw_fresh (s : State) : s.spendDraw.fresh = s.fresh := rfl

/-! ### markDone -/

@[simp] theorem State.markDone_addr (s : State) : s.markDone.addr = s.addr := rfl
@[simp] theorem State.markDone_len (s : State) : s.markDone.len = s.len := rfl
@[simp] theorem State.markDone_ipsrc (s : State) : s.markDone.ipsrc = s.ipsrc := rfl
@[simp] theorem State.markDone_ipdst (s : State) : s.markDone.ipdst = s.ipdst := rfl
@[simp] theorem State.markDone_result (s : State) : s.markDone.result = s.result := rfl
@[simp] theorem State.markDone_done (s : State) : s.markDone.done = true := rfl
@[simp] theorem State.markDone_err (s : State) : s.markDone.err = false := rfl
@[simp] theorem State.markDone_sticky (s : State) : s.markDone.sticky = s.sticky := rfl
@[simp] theorem State.markDone_errcode (s : State) : s.markDone.errcode = 0#4 := rfl
@[simp] theorem State.markDone_phase (s : State) : s.markDone.phase = s.phase := rfl
@[simp] theorem State.markDone_resetAsserted (s : State) : s.markDone.resetAsserted = s.resetAsserted := rfl
@[simp] theorem State.markDone_master (s : State) : s.markDone.master = s.master := rfl
@[simp] theorem State.markDone_held (s : State) : s.markDone.held = s.held := rfl
@[simp] theorem State.markDone_responses (s : State) : s.markDone.responses = s.responses := rfl
@[simp] theorem State.markDone_mem (s : State) : s.markDone.mem = s.mem := rfl
@[simp] theorem State.markDone_dirty (s : State) : s.markDone.dirty = s.dirty := rfl
@[simp] theorem State.markDone_platform (s : State) : s.markDone.platform = s.platform := rfl
@[simp] theorem State.markDone_script (s : State) : s.markDone.script = s.script := rfl
@[simp] theorem State.markDone_draws (s : State) : s.markDone.draws = s.draws := rfl
@[simp] theorem State.markDone_fresh (s : State) : s.markDone.fresh = s.fresh := rfl

/-! ### markError -/

@[simp] theorem State.markError_addr (c : ErrCode) (s : State) : (s.markError c).addr = s.addr := rfl
@[simp] theorem State.markError_len (c : ErrCode) (s : State) : (s.markError c).len = s.len := rfl
@[simp] theorem State.markError_ipsrc (c : ErrCode) (s : State) : (s.markError c).ipsrc = s.ipsrc := rfl
@[simp] theorem State.markError_ipdst (c : ErrCode) (s : State) : (s.markError c).ipdst = s.ipdst := rfl
@[simp] theorem State.markError_result (c : ErrCode) (s : State) : (s.markError c).result = s.result := rfl
@[simp] theorem State.markError_done (c : ErrCode) (s : State) : (s.markError c).done = false := rfl
@[simp] theorem State.markError_err (c : ErrCode) (s : State) : (s.markError c).err = true := rfl
@[simp] theorem State.markError_sticky (c : ErrCode) (s : State) : (s.markError c).sticky = true := rfl
@[simp] theorem State.markError_errcode (c : ErrCode) (s : State) : (s.markError c).errcode = c.code := rfl
@[simp] theorem State.markError_phase (c : ErrCode) (s : State) : (s.markError c).phase = s.phase := rfl
@[simp] theorem State.markError_resetAsserted (c : ErrCode) (s : State) : (s.markError c).resetAsserted = s.resetAsserted := rfl
@[simp] theorem State.markError_master (c : ErrCode) (s : State) : (s.markError c).master = s.master := rfl
@[simp] theorem State.markError_held (c : ErrCode) (s : State) : (s.markError c).held = s.held := rfl
@[simp] theorem State.markError_responses (c : ErrCode) (s : State) : (s.markError c).responses = s.responses := rfl
@[simp] theorem State.markError_mem (c : ErrCode) (s : State) : (s.markError c).mem = s.mem := rfl
@[simp] theorem State.markError_dirty (c : ErrCode) (s : State) : (s.markError c).dirty = s.dirty := rfl
@[simp] theorem State.markError_platform (c : ErrCode) (s : State) : (s.markError c).platform = s.platform := rfl
@[simp] theorem State.markError_script (c : ErrCode) (s : State) : (s.markError c).script = s.script := rfl
@[simp] theorem State.markError_draws (c : ErrCode) (s : State) : (s.markError c).draws = s.draws := rfl
@[simp] theorem State.markError_fresh (c : ErrCode) (s : State) : (s.markError c).fresh = s.fresh := rfl

/-! ### writeStatus -/

@[simp] theorem State.writeStatus_addr (v : Word) (s : State) : (s.writeStatus v).addr = s.addr := rfl
@[simp] theorem State.writeStatus_len (v : Word) (s : State) : (s.writeStatus v).len = s.len := rfl
@[simp] theorem State.writeStatus_ipsrc (v : Word) (s : State) : (s.writeStatus v).ipsrc = s.ipsrc := rfl
@[simp] theorem State.writeStatus_ipdst (v : Word) (s : State) : (s.writeStatus v).ipdst = s.ipdst := rfl
@[simp] theorem State.writeStatus_result (v : Word) (s : State) : (s.writeStatus v).result = s.result := rfl
@[simp] theorem State.writeStatus_done (v : Word) (s : State) : (s.writeStatus v).done = s.done := rfl
@[simp] theorem State.writeStatus_err (v : Word) (s : State) : (s.writeStatus v).err = s.err := rfl
@[simp] theorem State.writeStatus_sticky (v : Word) (s : State) : (s.writeStatus v).sticky = (s.sticky && !v.getLsbD 2) := rfl
@[simp] theorem State.writeStatus_errcode (v : Word) (s : State) : (s.writeStatus v).errcode = s.errcode := rfl
@[simp] theorem State.writeStatus_phase (v : Word) (s : State) : (s.writeStatus v).phase = s.phase := rfl
@[simp] theorem State.writeStatus_resetAsserted (v : Word) (s : State) : (s.writeStatus v).resetAsserted = s.resetAsserted := rfl
@[simp] theorem State.writeStatus_master (v : Word) (s : State) : (s.writeStatus v).master = s.master := rfl
@[simp] theorem State.writeStatus_held (v : Word) (s : State) : (s.writeStatus v).held = s.held := rfl
@[simp] theorem State.writeStatus_responses (v : Word) (s : State) : (s.writeStatus v).responses = s.responses := rfl
@[simp] theorem State.writeStatus_mem (v : Word) (s : State) : (s.writeStatus v).mem = s.mem := rfl
@[simp] theorem State.writeStatus_dirty (v : Word) (s : State) : (s.writeStatus v).dirty = s.dirty := rfl
@[simp] theorem State.writeStatus_platform (v : Word) (s : State) : (s.writeStatus v).platform = s.platform := rfl
@[simp] theorem State.writeStatus_script (v : Word) (s : State) : (s.writeStatus v).script = s.script := rfl
@[simp] theorem State.writeStatus_draws (v : Word) (s : State) : (s.writeStatus v).draws = s.draws := rfl
@[simp] theorem State.writeStatus_fresh (v : Word) (s : State) : (s.writeStatus v).fresh = s.fresh := rfl

end Sys2Proof.Machine
end

