-- ==== Sys2Proof/Laws/Engine.lean ====
section
/-! SUPPORT. What the engine does, once for each shared operation: the answers of the read port, one read, one step of the engine, the runs
of a command whose reads are answered with data, meet a bus error, or meet a read that is never answered, and what no step of
the engine changes. -/

namespace Sys2Proof.Machine

theorem portRead_unanswered_iff (s : State) (d : ReadDraw) (a : Word) : s.portRead d a = .unanswered ↔
    s.platform.regionAt a.toNat = some .ownWindow ∨ s.platform.regionAt a.toNat = some .unanswered ∨
      (s.platform.regionAt a.toNat ≠ some .busError ∧ d.answer = .unanswered) := by
  unfold State.portRead
  cases hr : s.platform.regionAt a.toNat with
  | none => cases hd : d.answer <;> simp
  | some k => cases k <;> cases hd : d.answer <;> simp

theorem portRead_busError_iff (s : State) (d : ReadDraw) (a : Word) : s.portRead d a = .busError ↔
    s.platform.regionAt a.toNat = some .busError ∨
      (s.platform.regionAt a.toNat ≠ some .ownWindow ∧ s.platform.regionAt a.toNat ≠ some .unanswered ∧
        d.answer = .busError) := by
  unfold State.portRead
  cases hr : s.platform.regionAt a.toNat with
  | none => cases hd : d.answer <;> simp
  | some k => cases k <;> cases hd : d.answer <;> simp

theorem portRead_ne_unanswered {s : State} {d : ReadDraw} {a : Word} (h1 : d.answer ≠ .unanswered) (h2 : s.platform.regionAt a.toNat ≠ some .ownWindow)
    (h3 : s.platform.regionAt a.toNat ≠ some .unanswered) : s.portRead d a ≠ .unanswered := by
  rw [Ne, portRead_unanswered_iff]; tauto

theorem portRead_plain {s : State} {d : ReadDraw} {a : Word} (hr : s.platform.regionAt a.toNat = none) (hd : d.answer = .data) :
    s.portRead d a = .data (s.seenByte d.seesDirty a) := by
  simp only [State.portRead, hr, hd]

/-- A read of the port depends on the platform, the free values used, and what memory and the caches hold at its address. -/
theorem portRead_congr {s t : State} (d : ReadDraw) {a : Word} (hp : t.platform = s.platform) (hf : t.fresh = s.fresh)
    (hm : t.mem.read a.toNat = s.mem.read a.toNat) (hc : cellsFind t.dirty a.toNat = cellsFind s.dirty a.toNat) :
    t.portRead d a = s.portRead d a := by
  simp only [State.portRead, State.seenByte, hp, hf, hm, hc]

theorem State.seenByte_settled {s : State} {a : Word} (d : Bool)
    (h : s.platform.readPortCoherent = true ∨ cellsFind s.dirty a.toNat = none) : s.seenByte d a = s.seenByte false a := by
  unfold State.seenByte
  rcases h with h | h <;> simp [h]

theorem State.drawAt_spendDraw (s : State) (k : Nat) : s.spendDraw.drawAt k = s.drawAt (k + 1) := by
  simp [State.drawAt, State.spendDraw]

theorem address_toNat {a : Word} {n i : Nat} (h : a.toNat + n ≤ 2 ^ 32) (hi : i < n) :
    (a + BitVec.ofNat 32 i).toNat = a.toNat + i := by
  simp only [BitVec.toNat_add, BitVec.toNat_ofNat]; omega

theorem getD_pick_mem {l : List Nat} {k : Nat} (h : k < l.length) : l.getD k 0 ∈ l := by
  rw [List.getD_eq_getElem l 0 h]; exact List.getElem_mem h

theorem mem_iff_eraseIdx {l : List Nat} {k : Nat} (h : k < l.length) (i : Nat) :
    i ∈ l ↔ i = l.getD k 0 ∨ i ∈ l.eraseIdx k := by
  rw [List.getD_eq_getElem l 0 h]
  have := List.getElem_cons_eraseIdx_perm h
  rw [← this.mem_iff]; simp

/-- A draw picks a place within `pending`. -/
theorem pick_lt {e : Exec} (d : ReadDraw) (h : e.pending ≠ []) : d.pick % e.pending.length < e.pending.length :=
  Nat.mod_lt _ (List.length_pos_iff.mpr h)

theorem engineTurn_idle {s : State} (h : s.phase = .idle) : engineTurn s = s := by
  unfold engineTurn; rw [h]

theorem busy_of_exec {s : State} {e : Exec} (hp : s.phase = .exec e) : s.busy = true := by unfold State.busy; rw [hp]

theorem idle_of_not_busy {s : State} (hb : s.busy = false) : s.phase = .idle := by
    unfold State.busy at hb; split at hb <;> simp_all

theorem engineTurn_stalled {s : State} {e : Exec} (hp : s.phase = .exec e) (hs : e.stalled.isSome = true) : engineTurn s = s := by
  unfold engineTurn; rw [hp]
  obtain ⟨x, hx⟩ := Option.isSome_iff_exists.mp hs
  simp [hx]

theorem engineTurns_fixed {s : State} (h : engineTurn s = s) (k : Nat) : engineTurns k s = s := by
  induction k with
  | zero => rfl
  | succ k ih => rw [engineTurns, h, ih]

theorem engineTurns_add (j k : Nat) (s : State) : engineTurns (j + k) s = engineTurns k (engineTurns j s) := by
  induction j generalizing s with
  | zero => simp [engineTurns]
  | succ j ih => rw [Nat.succ_add, engineTurns, ih]; rfl

theorem engineTurn_reads {s : State} {e : Exec} (hp : s.phase = .exec e) (hs : e.stalled = none) (he : e.error = none)
    (hne : e.pending ≠ []) : engineTurn s = readOne e s := by
  unfold engineTurn
  rw [hp]
  cases hq : e.pending with
  | nil => exact absurd hq hne
  | cons a l => simp [hs, he, hq]

theorem readOne_data {s : State} {e : Exec} {k i : Nat} {v : Byte} (hk : k = (s.drawAt 0).pick % e.pending.length)
    (hi : i = e.pending.getD k 0) (hv : s.portRead (s.drawAt 0) (e.address i) = .data v) :
    readOne e s = s.spendDraw.spendFresh.setPhase (.exec ((e.takePlace k).record i v)) := by
  subst hk hi; simp only [readOne, hv]

/-- All that one read can do: it takes one pending offset, and keeps the byte, notes the bus error, or stalls. -/
theorem readOne_cases (e : Exec) (s : State) (hne : e.pending ≠ []) :
    ∃ k i, k < e.pending.length ∧ i = e.pending.getD k 0 ∧
      ((∃ v, s.portRead (s.drawAt 0) (e.address i) = .data v ∧
          readOne e s = s.spendDraw.spendFresh.setPhase (.exec ((e.takePlace k).record i v))) ∨
        (s.portRead (s.drawAt 0) (e.address i) = .busError ∧
          readOne e s = s.spendDraw.spendFresh.setPhase (.exec { e.takePlace k with error := some .bus })) ∨
        (s.portRead (s.drawAt 0) (e.address i) = .unanswered ∧
          readOne e s = s.spendDraw.spendFresh.setPhase (.exec { e.takePlace k with stalled := some i }))) := by
  refine ⟨_, _, pick_lt (s.drawAt 0) hne, rfl, ?_⟩
  unfold readOne
  cases h : s.portRead (s.drawAt 0) (e.address (e.pending.getD ((s.drawAt 0).pick % e.pending.length) 0)) <;>
    simp only [h] <;> simp

/-- All that one step of the engine can do. -/
theorem engineTurn_cases (s : State) (e : Exec) (hp : s.phase = .exec e) :
    (engineTurn s = s ∧ e.stalled.isSome = true) ∨
    (e.stalled = none ∧ e.pending ≠ [] ∧ (e.error = none ∨ e.error = some .bus) ∧ engineTurn s = readOne e s) ∨
    (e.stalled = none ∧ e.error = none ∧ e.pending = [] ∧ engineTurn s = concludeCommand e s) ∨
    (e.stalled = none ∧ ∃ c, e.error = some c ∧ (engineTurn s = raiseError c e s ∨ (c = .bus ∧ engineTurn s = raiseError c e s.spendDraw))) := by
  unfold engineTurn
  rw [hp]
  cases hs : e.stalled with
  | some x => simp [hs]
  | none =>
    cases he : e.error with
    | none => cases hq : e.pending <;> simp [hs, he, hq]
    | some c =>
      cases c <;> cases hq : e.pending <;> simp [hs, he, hq]
      by_cases hst : (s.drawAt 0).stop = true <;> simp [hst]

/-- The reads of a command all of which are answered with data: whatever the order, each pending offset ends with a byte that `P`
allows it, where `P` allows whatever the port can return for it. -/
theorem engineTurns_answered (P : Nat → Byte → Prop) (m : Nat) : ∀ (s : State) (e : Exec), e.pending.length = m →
    s.phase = .exec e → e.stalled = none → e.error = none → (∀ k < m, (s.drawAt k).answer = .data) →
    (∀ i ∈ e.pending, ∀ (d : ReadDraw) (t : State), d.answer = .data → t.platform = s.platform → t.mem = s.mem →
      t.dirty = s.dirty → s.fresh ≤ t.fresh → t.fresh < s.fresh + m → ∃ v, t.portRead d (e.address i) = .data v ∧ P i v) →
    ∃ B A, engineTurns m s = { s with
        phase := .exec { e with pending := [], bytes := B, acc := A }
        draws := s.draws.drop m
        fresh := s.fresh + m } ∧
      ∀ i, (i ∈ e.pending → ∃ v, B.lookup i = some v ∧ P i v) ∧ (i ∉ e.pending → B.lookup i = e.bytes.lookup i) := by
  induction m with
  | zero =>
    intro s e hl hp hs he _ _
    have hnil := List.length_eq_zero_iff.mp hl
    refine ⟨e.bytes, e.acc, ?_, by simp [hnil]⟩
    cases s; cases e; simp_all [engineTurns]
  | succ m ih =>
    intro s e hl hp hs he hd hr
    have hne : e.pending ≠ [] := by intro h; rw [h] at hl; simp at hl
    set k := (s.drawAt 0).pick % e.pending.length with hk
    have hklt : k < e.pending.length := pick_lt _ hne
    set i := e.pending.getD k 0 with hi
    have hmem : i ∈ e.pending := getD_pick_mem hklt
    obtain ⟨v, hv, hP⟩ := hr i hmem (s.drawAt 0) s (hd 0 (by omega)) rfl rfl rfl (le_refl _) (by omega)
    rw [engineTurns, engineTurn_reads hp hs he hne, readOne_data hk hi hv]
    obtain ⟨B, A, h1, h2⟩ := ih (s.spendDraw.spendFresh.setPhase (.exec ((e.takePlace k).record i v)))
      ((e.takePlace k).record i v) (by simp [Exec.takePlace, Exec.record, List.length_eraseIdx, hl]; omega)
      rfl hs he (fun j hj => by have := hd (j + 1) (by omega); rw [← State.drawAt_spendDraw] at this; exact this)
      (fun j hj d t hd' hp' hm' hdd' hf1 hf2 => hr j ((mem_iff_eraseIdx hklt j).mpr (.inr hj)) d t hd' hp' hm' hdd'
        (by simp [State.setPhase, State.spendFresh, State.spendDraw] at hf1; omega)
        (by simp [State.setPhase, State.spendFresh, State.spendDraw] at hf2; omega))
    refine ⟨B, A, ?_, fun j => ?_⟩
    · rw [h1]
      simp [State.setPhase, State.spendFresh, State.spendDraw, Exec.record, Exec.takePlace, Nat.add_comm, Nat.add_left_comm]
    · obtain ⟨h3, h4⟩ := h2 j
      have hiff := mem_iff_eraseIdx hklt j
      rw [← hi] at hiff
      by_cases hj : j ∈ e.pending.eraseIdx k
      · exact ⟨fun _ => h3 hj, fun h => absurd (hiff.mpr (.inr hj)) h⟩
      · have h5 := h4 hj
        simp only [Exec.record, Exec.takePlace, List.lookup_cons] at h5
        by_cases hji : j = i
        · subst hji
          exact ⟨fun _ => ⟨v, by simpa using h5, hP⟩, fun h => absurd hmem h⟩
        · rw [show (j == i) = false by simp [hji]] at h5
          exact ⟨fun h => by rcases hiff.mp h with h | h; exacts [absurd h hji, absurd h hj], fun _ => h5⟩

/-- Every coming read of the command is answered, by data or by a bus error. -/
def State.answering (s : State) (e : Exec) : Prop :=
  (∀ k < e.pending.length, (s.drawAt k).answer ≠ .unanswered) ∧
  ∀ i ∈ e.pending, s.platform.regionAt (e.address i).toNat ≠ some .ownWindow ∧
      s.platform.regionAt (e.address i).toNat ≠ some .unanswered

theorem engineTurns_after_busError (m : Nat) : ∀ (s : State) (e : Exec), e.pending.length = m → s.phase = .exec e → e.stalled = none →
    e.error = some .bus → s.answering e →
    ∃ r u, r ≤ m ∧ r ≤ u ∧ u ≤ r + 1 ∧ engineTurns (m + 1) s = { s with
        result := Config.busResult (s.fresh + r)
        done := false, err := true, errcode := 3#4, sticky := true, phase := .idle
        responses := s.responses ++ [Response.writeDone e.issuer]
        draws := s.draws.drop u
        fresh := s.fresh + r + 1 } := by
  induction m with
  | zero =>
    intro s e hl hp hs he _
    have hnil := List.length_eq_zero_iff.mp hl
    refine ⟨0, 0, le_refl _, le_refl _, by omega, ?_⟩
    simp only [engineTurns, engineTurn, hp, hs, he, hnil]
    cases s; rfl
  | succ m ih =>
    intro s e hl hp hs he ha
    have hne : e.pending ≠ [] := by intro h; rw [h] at hl; simp at hl
    by_cases hst : (s.drawAt 0).stop = true
    · refine ⟨0, 1, by omega, by omega, by omega, ?_⟩
      have h1 : engineTurn s = raiseError .bus e s.spendDraw := by
        unfold engineTurn
        rw [hp]
        cases hq : e.pending with
        | nil => exact absurd hq hne
        | cons a l => simp [hs, he, hq, hst]
      rw [engineTurns, h1, engineTurns_fixed (engineTurn_idle rfl)]
      cases s; simp [raiseError, State.spendDraw, State.respond, State.setPhase, State.setResult, State.markError, State.spendFresh, ErrCode.code]
    · have h1 : engineTurn s = readOne e s := by
        unfold engineTurn
        rw [hp]
        cases hq : e.pending with
        | nil => exact absurd hq hne
        | cons a l => simp [hs, he, hq, hst]
      obtain ⟨k, i, hk, hi, hc⟩ := readOne_cases e s hne
      have hmem : i ∈ e.pending := hi ▸ getD_pick_mem hk
      have key : ∀ e' : Exec, e'.pending = e.pending.eraseIdx k → e'.stalled = none → e'.error = some .bus → e'.issuer = e.issuer →
          e'.opAddr = e.opAddr → engineTurn s = s.spendDraw.spendFresh.setPhase (.exec e') →
          ∃ r u, r ≤ m + 1 ∧ r ≤ u ∧ u ≤ r + 1 ∧ engineTurns (m + 1 + 1) s = { s with
            result := Config.busResult (s.fresh + r)
            done := false, err := true, errcode := 3#4, sticky := true, phase := .idle
            responses := s.responses ++ [Response.writeDone e.issuer]
            draws := s.draws.drop u
            fresh := s.fresh + r + 1 } := by
        intro e' hpe hse hee hie hoe ht
        obtain ⟨r, u, hr, hu, hu2, h2⟩ := ih (s.spendDraw.spendFresh.setPhase (.exec e')) e'
          (by rw [hpe, List.length_eraseIdx]; simp [hk]; omega) rfl hse hee
          ⟨fun j hj => by
            have := ha.1 (j + 1) (by rw [hpe, List.length_eraseIdx] at hj; simp [hk] at hj; omega)
            rw [← State.drawAt_spendDraw] at this; exact this, fun j hj => by
            have := ha.2 j ((mem_iff_eraseIdx hk j).mpr (.inr (hpe ▸ hj)))
            simpa [Exec.address, hoe] using this⟩
        refine ⟨r + 1, u + 1, by omega, by omega, by omega, ?_⟩
        rw [engineTurns, ht, h2, hie]
        simp [State.setPhase, State.spendFresh, State.spendDraw, Nat.add_comm, Nat.add_left_comm]
      rcases hc with ⟨v, _, h⟩ | ⟨_, h⟩ | ⟨hun, _⟩
      · exact key ((e.takePlace k).record i v) rfl hs he rfl rfl (h1.trans h)
      · exact key { e.takePlace k with error := some .bus } rfl hs rfl rfl rfl (h1.trans h)
      · rw [portRead_unanswered_iff] at hun
        have h3 := ha.2 i hmem
        have h4 := ha.1 0 (by omega)
        tauto

theorem engineTurns_busError (m : Nat) : ∀ (s : State) (e : Exec), e.pending.length = m → s.phase = .exec e → e.stalled = none →
    e.error = none → s.answering e →
    ((∃ k < m, (s.drawAt k).answer = .busError) ∨ (∃ j ∈ e.pending, s.platform.regionAt (e.address j).toNat = some .busError)) →
    ∃ r u, 1 ≤ r ∧ r ≤ m ∧ r ≤ u ∧ u ≤ r + 1 ∧ engineTurns (m + 1) s = { s with
        result := Config.busResult (s.fresh + r)
        done := false, err := true, errcode := 3#4, sticky := true, phase := .idle
        responses := s.responses ++ [Response.writeDone e.issuer]
        draws := s.draws.drop u
        fresh := s.fresh + r + 1 } := by
  induction m with
  | zero =>
    intro s e hl hp hs he _ hc
    have hnil := List.length_eq_zero_iff.mp hl
    simp [hnil] at hc
  | succ m ih =>
    intro s e hl hp hs he ha hc
    have hne : e.pending ≠ [] := by intro h; rw [h] at hl; simp at hl
    have h1 := engineTurn_reads hp hs he hne
    obtain ⟨k, i, hk, hi, hcase⟩ := readOne_cases e s hne
    have hmem : i ∈ e.pending := hi ▸ getD_pick_mem hk
    have hans : ∀ e' : Exec, e'.pending = e.pending.eraseIdx k → e'.opAddr = e.opAddr → (s.spendDraw.spendFresh.setPhase (.exec e')).answering e' :=
      fun e' hpe hoe => ⟨fun j hj => by
            have := ha.1 (j + 1) (by rw [hpe, List.length_eraseIdx] at hj; simp [hk] at hj; omega)
            rw [← State.drawAt_spendDraw] at this; exact this, fun j hj => by
            have := ha.2 j ((mem_iff_eraseIdx hk j).mpr (.inr (hpe ▸ hj)))
            simpa [Exec.address, hoe] using this⟩
    rcases hcase with ⟨v, hv, h⟩ | ⟨_, h⟩ | ⟨hun, _⟩
    · obtain ⟨r, u, hr1, hr, hu, hu2, h2⟩ := ih (s.spendDraw.spendFresh.setPhase (.exec ((e.takePlace k).record i v)))
        ((e.takePlace k).record i v) (by simp [Exec.takePlace, Exec.record, List.length_eraseIdx, hl]; omega) rfl hs he
          (hans _ rfl rfl) (by
            have hnb : s.portRead (s.drawAt 0) (e.address i) ≠ .busError := by rw [hv]; simp
            rw [Ne, portRead_busError_iff] at hnb
            have h3 := ha.2 i hmem
            rcases hc with ⟨j, hj, hjb⟩ | ⟨j, hj, hjb⟩
            · left
              cases j with
              | zero => tauto
              | succ j => exact ⟨j, by omega, hjb ▸ congrArg _ (State.drawAt_spendDraw s j)⟩
            · right
              rcases (mem_iff_eraseIdx hk j).mp hj with hji | hje
              · rw [← hi] at hji; subst hji; tauto
              · exact ⟨j, hje, hjb⟩)
      refine ⟨r + 1, u + 1, by omega, by omega, by omega, by omega, ?_⟩
      rw [engineTurns, h1, h, h2]
      simp [State.setPhase, State.spendFresh, State.spendDraw, Nat.add_comm, Nat.add_left_comm, Exec.record, Exec.takePlace]
    · obtain ⟨r, u, hr, hu, hu2, h2⟩ := engineTurns_after_busError m (s.spendDraw.spendFresh.setPhase (.exec { e.takePlace k with error := some .bus }))
        { e.takePlace k with error := some .bus } (by simp [Exec.takePlace, List.length_eraseIdx, hl]; omega) rfl hs rfl (hans _ rfl rfl)
      refine ⟨r + 1, u + 1, by omega, by omega, by omega, by omega, ?_⟩
      rw [engineTurns, h1, h, h2]
      simp [State.setPhase, State.spendFresh, State.spendDraw, Nat.add_comm, Nat.add_left_comm, Exec.takePlace]
    · rw [portRead_unanswered_iff] at hun
      have h3 := ha.2 i hmem
      have h4 := ha.1 0 (by omega)
      tauto

theorem engineTurns_unanswered (m : Nat) : ∀ (s : State) (e : Exec), e.pending.length = m → s.phase = .exec e → e.stalled = none →
    e.error = none → (∀ k < m, (s.drawAt k).answer ≠ .busError) → 
    (∀ j ∈ e.pending, s.platform.regionAt (e.address j).toNat ≠ some .busError) →
    ((∃ k < m, (s.drawAt k).answer = .unanswered) ∨
      (∃ j ∈ e.pending, s.platform.regionAt (e.address j).toNat = some .ownWindow ∨
        s.platform.regionAt (e.address j).toNat = some .unanswered)) →
    ∃ e' r, e'.stalled.isSome = true ∧ e'.cmd = e.cmd ∧ e'.issuer = e.issuer ∧ 1 ≤ r ∧ r ≤ m ∧ engineTurns (m + 1) s = { s with
        phase := .exec e'
        draws := s.draws.drop r
        fresh := s.fresh + r } := by
  induction m with
  | zero =>
    intro s e hl hp hs he _ _ hc
    have hnil := List.length_eq_zero_iff.mp hl
    simp [hnil] at hc
  | succ m ih =>
    intro s e hl hp hs he hd hb hc
    have hne : e.pending ≠ [] := by intro h; rw [h] at hl; simp at hl
    have h1 := engineTurn_reads hp hs he hne
    obtain ⟨k, i, hk, hi, hcase⟩ := readOne_cases e s hne
    have hmem : i ∈ e.pending := hi ▸ getD_pick_mem hk
    rcases hcase with ⟨v, hv, h⟩ | ⟨hbe, h⟩ | ⟨hun, h⟩
    · obtain ⟨e', r, hst, hcm, hii, hr1, hr, h2⟩ := ih (s.spendDraw.spendFresh.setPhase (.exec ((e.takePlace k).record i v)))
        ((e.takePlace k).record i v) (by simp [Exec.takePlace, Exec.record, List.length_eraseIdx, hl]; omega) rfl hs he
          (fun j hj => by
            have := hd (j + 1) (by omega)
            rw [← State.drawAt_spendDraw] at this; exact this)
          (fun j hj => hb j ((mem_iff_eraseIdx hk j).mpr (.inr hj)))
          (by
            have hnb : s.portRead (s.drawAt 0) (e.address i) ≠ .unanswered := by rw [hv]; simp
            rw [Ne, portRead_unanswered_iff] at hnb
            have hbi := hb i hmem
            rcases hc with ⟨j, hj, hju⟩ | ⟨j, hj, hjb⟩
            · left
              cases j with
              | zero => tauto
              | succ j => exact ⟨j, by omega, hju ▸ congrArg _ (State.drawAt_spendDraw s j)⟩
            · right
              rcases (mem_iff_eraseIdx hk j).mp hj with hji | hje
              · rw [← hi] at hji; subst hji; tauto
              · exact ⟨j, hje, hjb⟩)
      refine ⟨e', r + 1, hst, hcm, hii, by omega, by omega, ?_⟩
      rw [engineTurns, h1, h, h2]
      simp [State.setPhase, State.spendFresh, State.spendDraw, Nat.add_comm, Nat.add_left_comm]
    · rw [portRead_busError_iff] at hbe
      have := hd 0 (by omega)
      have := hb i hmem
      tauto
    · refine ⟨{ e.takePlace k with stalled := some i }, 1, rfl, rfl, rfl, by omega, by omega, ?_⟩
      rw [engineTurns, h1, h, engineTurns_fixed (by simp [engineTurn, State.setPhase])]
      simp [State.setPhase, State.spendFresh, State.spendDraw]

theorem engineTurns_end_within (m : Nat) : ∀ (s : State) (e : Exec), e.pending.length = m → s.phase = .exec e → e.stalled = none → s.answering e →
    ∃ k ≤ m + 1, (engineTurns k s).phase = .idle ∧ (engineTurns k s).responses = s.responses ++ [Response.writeDone e.issuer] ∧
      ((engineTurns k s).done = true ∨ (engineTurns k s).err = true) := by
  induction m with
  | zero =>
    intro s e hl hp hs _
    have hnil := List.length_eq_zero_iff.mp hl
    refine ⟨1, by omega, ?_⟩
    simp only [engineTurns]
    rcases engineTurn_cases s e hp with ⟨_, h⟩ | ⟨_, hne, _, h⟩ | ⟨_, _, _, h⟩ | ⟨_, c, _, h | ⟨_, h⟩⟩
    · simp [hs] at h
    · exact absurd hnil hne
    · rw [h]; unfold concludeCommand; split
      · exact ⟨rfl, rfl, .inl rfl⟩
      · exact ⟨rfl, rfl, .inr rfl⟩
    · rw [h]; cases c <;> exact ⟨rfl, rfl, .inr rfl⟩
    · rw [h]; cases c <;> exact ⟨rfl, rfl, .inr rfl⟩
  | succ m ih =>
    intro s e hl hp hs ha
    rcases engineTurn_cases s e hp with ⟨_, h⟩ | ⟨_, hne, _, h⟩ | ⟨_, _, _, h⟩ | ⟨_, c, _, h | ⟨_, h⟩⟩
    · simp [hs] at h
    · obtain ⟨k, i, hk, hi, hcase⟩ := readOne_cases e s hne
      have hmem : i ∈ e.pending := hi ▸ getD_pick_mem hk
      have key : ∀ e' : Exec, e'.pending = e.pending.eraseIdx k → e'.opAddr = e.opAddr → e'.stalled = none → e'.issuer = e.issuer →
          readOne e s = s.spendDraw.spendFresh.setPhase (.exec e') → ∃ k ≤ m + 1 + 1, (engineTurns k s).phase = .idle ∧ (engineTurns k s).responses = s.responses ++ [Response.writeDone e.issuer] ∧
      ((engineTurns k s).done = true ∨ (engineTurns k s).err = true) := by
        intro e' hpe hoe hse hie hr
        obtain ⟨j, hj, h1, h2, h3⟩ := ih (s.spendDraw.spendFresh.setPhase (.exec e')) e' (by rw [hpe, List.length_eraseIdx]; simp [hk]; omega) rfl hse
          ⟨fun j hj => by
            have := ha.1 (j + 1) (by rw [hpe, List.length_eraseIdx] at hj; simp [hk] at hj; omega)
            rw [← State.drawAt_spendDraw] at this; exact this, fun j hj => by
            have := ha.2 j ((mem_iff_eraseIdx hk j).mpr (.inr (hpe ▸ hj)))
            simpa [Exec.address, hoe] using this⟩
        refine ⟨j + 1, by omega, ?_⟩
        rw [engineTurns, h, hr]
        rw [hie] at h2
        exact ⟨h1, h2, h3⟩
      rcases hcase with ⟨v, _, hr⟩ | ⟨_, hr⟩ | ⟨hu, _⟩
      · exact key ((e.takePlace k).record i v) rfl rfl hs rfl hr
      · exact key { e.takePlace k with error := some .bus } rfl rfl hs rfl hr
      · exact absurd hu (portRead_ne_unanswered (ha.1 0 (by omega)) (ha.2 i hmem).1 (ha.2 i hmem).2)
    · refine ⟨1, by omega, ?_⟩
      simp only [engineTurns]
      rw [h]; unfold concludeCommand; split
      · exact ⟨rfl, rfl, .inl rfl⟩
      · exact ⟨rfl, rfl, .inr rfl⟩
    · refine ⟨1, by omega, ?_⟩
      simp only [engineTurns]
      rw [h]; cases c <;> exact ⟨rfl, rfl, .inr rfl⟩
    · refine ⟨1, by omega, ?_⟩
      simp only [engineTurns]
      rw [h]; cases c <;> exact ⟨rfl, rfl, .inr rfl⟩

theorem engineTurns_settle (m : Nat) : ∀ (s : State) (e : Exec), s.phase = .exec e → e.pending.length ≤ m → 
    engineTurn (engineTurns (m + 1) s) = engineTurns (m + 1) s := by
  induction m with
  | zero =>
    intro s e hp hl
    have hnil : e.pending = [] := List.length_eq_zero_iff.mp (by omega)
    simp only [engineTurns]
    rcases engineTurn_cases s e hp with ⟨h, _⟩ | ⟨_, hne, _, h⟩ | ⟨_, _, _, h⟩ | ⟨_, c, _, h | ⟨_, h⟩⟩
    · rw [h, h]
    · exact absurd hnil hne
    · rw [h]; exact engineTurn_idle (by unfold concludeCommand; split <;> rfl)
    · rw [h]; exact engineTurn_idle (by cases c <;> rfl)
    · rw [h]; exact engineTurn_idle (by cases c <;> rfl)
  | succ m ih =>
    intro s e hp hl
    rw [engineTurns]
    rcases engineTurn_cases s e hp with ⟨h, _⟩ | ⟨_, hne, _, h⟩ | ⟨_, _, _, h⟩ | ⟨_, c, _, h | ⟨_, h⟩⟩
    · rw [h, engineTurns_fixed h, h]
    · obtain ⟨k, i, hk, _, ⟨v, _, hr⟩ | ⟨_, hr⟩ | ⟨_, hr⟩⟩ := readOne_cases e s hne <;> rw [h, hr] <;>
        refine ih _ _ rfl ?_ <;> simp [Exec.record, Exec.takePlace, List.length_eraseIdx, hk] <;> omega
    · have : (engineTurn s).phase = .idle := by rw [h]; unfold concludeCommand; split <;> rfl
      rw [engineTurns_fixed (engineTurn_idle this), engineTurn_idle this]
    · have : (engineTurn s).phase = .idle := by rw [h]; cases c <;> rfl
      rw [engineTurns_fixed (engineTurn_idle this), engineTurn_idle this]
    · have : (engineTurn s).phase = .idle := by rw [h]; cases c <;> rfl
      rw [engineTurns_fixed (engineTurn_idle this), engineTurn_idle this]

theorem acceptError_valid {a : Word} {n : Nat} (h : a.toNat + n ≤ 2 ^ 32) : acceptError a (some n) = none := by
  simp only [acceptError]; rw [if_pos]; unfold rangeValid dataSpace; exact decide_eq_true (by omega)

theorem acceptError_range {a : Word} {n : Nat} (h : 2 ^ 32 < a.toNat + n) : acceptError a (some n) = some .range := by
  simp only [acceptError]; rw [if_neg]; unfold rangeValid dataSpace; simp; omega

theorem turnsLeft_accept_error {w : Word} {n : Option Nat} {s : State} {c : ErrCode} (h : acceptError s.addr n = some c) :
    (acceptCommand w n s).turnsLeft = 1 := by
  simp [acceptCommand, State.turnsLeft, State.setPhase, latchCommand, h]

theorem exec_eq_runFrame (i : Instr) (s : State) : exec i s = .next (runFrame (encode i) (some (byteCount i s.len)) s) := by
  cases i <;> rfl

theorem exec_valid {i : Instr} {s : State} {n : Nat} (hb : s.busy = false) (hn : n = byteCount i s.len)
    (hv : s.addr.toNat + n ≤ 2 ^ 32) :
    exec i s = .next (engineTurns (n + 1) (s.setPhase (.exec (latchCommand (encode i) (some n) s)))) := by
  rw [exec_eq_runFrame, runFrame, hb, ← hn]
  simp [acceptCommand, latchCommand, acceptError_valid hv, finishCommand, State.turnsLeft, State.setPhase]

theorem runFrame_range {w : Word} {n : Nat} {s : State} (hb : s.busy = false) (h : 2 ^ 32 < s.addr.toNat + n) :
    runFrame w (some n) s = { s with
      done := false, err := true, errcode := 2#4, sticky := true
      responses := s.responses ++ [Response.writeDone s.master] } := by
  have hi := idle_of_not_busy hb
  have he := acceptError_range h
  rw [runFrame, if_neg (by simp [hb]), finishCommand, turnsLeft_accept_error he]
  simp only [engineTurns, engineTurn, acceptCommand, State.setPhase, latchCommand, he]
  cases s; simp_all [raiseError, State.markError, State.setPhase, State.respond, ErrCode.code]

theorem runFrame_illegal {w : Word} {s : State} (hb : s.busy = false) :
    runFrame w none s = { s with
      done := false, err := true, errcode := 1#4, sticky := true
      responses := s.responses ++ [Response.writeDone s.master] } := by
  have hi := idle_of_not_busy hb
  have he : acceptError s.addr none = some .illegalCmd := rfl
  rw [runFrame, if_neg (by simp [hb]), finishCommand, turnsLeft_accept_error he]
  simp only [engineTurns, engineTurn, acceptCommand, State.setPhase, latchCommand, he]
  cases s; simp_all [raiseError, State.markError, State.setPhase, State.respond, ErrCode.code]

/-- What the engine leaves alone between two states: the operands and everything outside it; STICKY is never cleared. -/
structure EngineFrame (s t : State) : Prop where
  ops : t.addr = s.addr ∧ t.len = s.len ∧ t.ipsrc = s.ipsrc ∧ t.ipdst = s.ipdst
  env : t.mem = s.mem ∧ t.dirty = s.dirty ∧ t.platform = s.platform ∧ t.script = s.script ∧ t.master = s.master ∧ t.resetAsserted = s.resetAsserted ∧ t.held = s.held
  sticky : s.sticky = true → t.sticky = true

theorem EngineFrame.refl (s : State) : EngineFrame s s := ⟨⟨rfl, rfl, rfl, rfl⟩, ⟨rfl, rfl, rfl, rfl, rfl, rfl, rfl⟩, id⟩

theorem EngineFrame.trans {s t u : State} (h : EngineFrame s t) (k : EngineFrame t u) : EngineFrame s u := by
  obtain ⟨⟨a, b, c, d⟩, ⟨e, f, g, i, j, l, m⟩, n⟩ := h
  obtain ⟨⟨a', b', c', d'⟩, ⟨e', f', g', i', j', l', m'⟩, n'⟩ := k
  exact ⟨⟨a'.trans a, b'.trans b, c'.trans c, d'.trans d⟩, ⟨e'.trans e, f'.trans f, g'.trans g, i'.trans i, j'.trans j, l'.trans l, m'.trans m⟩, n' ∘ n⟩

theorem raiseError_frame (c : ErrCode) (e : Exec) (s : State) : EngineFrame s (raiseError c e s) := by
  cases c <;> exact ⟨⟨rfl, rfl, rfl, rfl⟩, ⟨rfl, rfl, rfl, rfl, rfl, rfl, rfl⟩, fun _ => rfl⟩

theorem engineTurn_frame (s : State) : EngineFrame s (engineTurn s) := by
  cases hp : s.phase with
  | idle => rw [engineTurn_idle hp]; exact .refl s
  | exec e =>
    rcases engineTurn_cases s e hp with ⟨h, _⟩ | ⟨_, hne, _, h⟩ | ⟨_, _, _, h⟩ | ⟨_, c, _, h | ⟨_, h⟩⟩
    · rw [h]; exact .refl s
    · rw [h]
      obtain ⟨k, i, _, _, ⟨v, _, hr⟩ | ⟨_, hr⟩ | ⟨_, hr⟩⟩ := readOne_cases e s hne <;> rw [hr] <;>
        exact ⟨⟨rfl, rfl, rfl, rfl⟩, ⟨rfl, rfl, rfl, rfl, rfl, rfl, rfl⟩, id⟩
    · rw [h]; unfold concludeCommand; split
      · exact ⟨⟨rfl, rfl, rfl, rfl⟩, ⟨rfl, rfl, rfl, rfl, rfl, rfl, rfl⟩, id⟩
      · exact raiseError_frame _ e s
    · rw [h]; exact raiseError_frame c e s
    · rw [h]; exact (⟨⟨rfl, rfl, rfl, rfl⟩, ⟨rfl, rfl, rfl, rfl, rfl, rfl, rfl⟩, id⟩ : EngineFrame s s.spendDraw).trans (raiseError_frame c e _)

theorem engineTurns_frame (k : Nat) (s : State) : EngineFrame s (engineTurns k s) := by
  induction k generalizing s with
  | zero => exact .refl s
  | succ k ih => exact (engineTurn_frame s).trans (ih _)

theorem acceptCommand_frame (w : Word) (n : Option Nat) (s : State) : EngineFrame s (acceptCommand w n s) :=
  ⟨⟨rfl, rfl, rfl, rfl⟩, ⟨rfl, rfl, rfl, rfl, rfl, rfl, rfl⟩, id⟩

theorem runFrame_frame (w : Word) (n : Option Nat) (s : State) (hb : s.busy = false) : EngineFrame s (runFrame w n s) := by
  unfold runFrame; rw [if_neg (by simp [hb])]
  exact (⟨⟨rfl, rfl, rfl, rfl⟩, ⟨rfl, rfl, rfl, rfl, rfl, rfl, rfl⟩, id⟩ : EngineFrame s (acceptCommand w n s)).trans (engineTurns_frame _ _)

/-- Between two states the bus has answered nobody and the command of host `h` is still in execution, or it has answered `h` and the
command has ended. -/
def Answers (h : Nat) (s t : State) : Prop :=
  (t.responses = s.responses ∧ ∃ e', t.phase = .exec e' ∧ e'.issuer = h) ∨ (t.responses = s.responses ++ [Response.writeDone h] ∧ t.phase = .idle)

theorem engineTurn_answers (s : State) (e : Exec) (hp : s.phase = .exec e) : Answers e.issuer s (engineTurn s) := by
    rcases engineTurn_cases s e hp with ⟨h, _⟩ | ⟨_, hne, _, h⟩ | ⟨_, _, _, h⟩ | ⟨_, c, _, h | ⟨_, h⟩⟩
    · rw [h]; exact .inl ⟨rfl, e, hp, rfl⟩
    · rw [h]
      obtain ⟨k, i, _, _, ⟨v, _, hr⟩ | ⟨_, hr⟩ | ⟨_, hr⟩⟩ := readOne_cases e s hne <;> rw [hr] <;>
        exact .inl ⟨rfl, _, rfl, rfl⟩
    · rw [h]; unfold concludeCommand; split
      · exact .inr ⟨rfl, rfl⟩
      · exact .inr ⟨rfl, rfl⟩
    · rw [h]; cases c <;> exact .inr ⟨rfl, rfl⟩
    · rw [h]; cases c <;> exact .inr ⟨rfl, rfl⟩

theorem engineTurns_answers (k : Nat) : ∀ (s : State) (e : Exec), s.phase = .exec e → Answers e.issuer s (engineTurns k s) := by
  induction k with
  | zero => intro s e hp; exact .inl ⟨rfl, e, hp, rfl⟩
  | succ k ih =>
    intro s e hp
    rcases engineTurn_answers s e hp with ⟨h1, e', h2, h3⟩ | ⟨h1, h2⟩
    · rw [engineTurns]
      have := ih _ e' h2
      rw [h3] at this; unfold Answers at this ⊢; rwa [h1] at this
    · rw [engineTurns, engineTurns_fixed (engineTurn_idle h2)]; exact .inr ⟨h1, h2⟩

theorem clearEngine_env (s : State) : s.clearEngine.mem = s.mem ∧ s.clearEngine.dirty = s.dirty ∧ s.clearEngine.platform = s.platform ∧
    s.clearEngine.script = s.script ∧ s.clearEngine.held = s.held := by
  unfold State.clearEngine; cases s.phase <;> exact ⟨rfl, rfl, rfl, rfl, rfl⟩

theorem releaseReset_env (s : State) : s.releaseReset.mem = s.mem ∧ s.releaseReset.dirty = s.dirty ∧ s.releaseReset.platform = s.platform ∧
    s.releaseReset.script = s.script ∧ s.releaseReset.held = s.held := by
  unfold State.releaseReset
  split
  · exact clearEngine_env s
  · exact ⟨rfl, rfl, rfl, rfl, rfl⟩

end Sys2Proof.Machine
end

