-- ==== Sys2Proof/Laws/Memory.lean ====
section
/-! SUPPORT. Cells and data memory: what each operation reads as afterwards, and that each keeps the canonical form (20_memory.md rules R33
and R34). -/

namespace Sys2Proof.Machine

theorem insideDataSpace_iff (a : Word) (n : Nat) : insideDataSpace a n = true ↔ a.toNat + n ≤ 2 ^ 32 := by
  unfold insideDataSpace; rw [decide_eq_true_iff]; rfl

theorem cellsFind_nil (a : Nat) : cellsFind [] a = none := rfl

theorem cellsFind_cons (c : Host.Cell) (cs : List Host.Cell) (a : Nat) :
    cellsFind (c :: cs) a = if a = c.1 then some c.2 else cellsFind cs a := by
  obtain ⟨k, v⟩ := c
  by_cases h : a = k
  · subst h; simp [cellsFind]
  · simp [cellsFind, List.lookup_cons, h, show (a == k) = false by simp [h]]

theorem cellsFind_put (a : Nat) (v : Byte) (cs : List Host.Cell) (c : Nat) :
    cellsFind (cellsPut a v cs) c = if c = a then some v else cellsFind cs c := by
  induction cs with
  | nil => simp [cellsPut, cellsFind_cons, cellsFind_nil]
  | cons x xs ih =>
    unfold cellsPut
    split
    · simp only [cellsFind_cons]
    · split
      · simp only [cellsFind_cons]; split <;> simp_all
      · simp only [cellsFind_cons, ih]
        by_cases h1 : c = x.1 <;> by_cases h2 : c = a <;> simp_all

theorem cellsFind_filter (p : Nat → Bool) (cs : List Host.Cell) (c : Nat) :
    cellsFind (cs.filter fun x => p x.1) c = if p c then cellsFind cs c else none := by
  induction cs with
  | nil => simp [cellsFind_nil]
  | cons x xs ih =>
    simp only [List.filter_cons]
    by_cases hx : p x.1 = true
    · simp only [hx, if_true, cellsFind_cons, ih]
      by_cases h1 : c = x.1
      · subst h1; simp [hx]
      · simp [h1]
    · rw [if_neg hx, ih, cellsFind_cons]
      by_cases h1 : c = x.1
      · subst h1; simp [hx]
      · simp [h1]

theorem cellsFind_drop (a : Nat) (cs : List Host.Cell) (c : Nat) :
    cellsFind (cellsDrop a cs) c = if c = a then none else cellsFind cs c := by
  have := cellsFind_filter (fun k => k != a) cs c
  unfold cellsDrop
  rw [this]
  by_cases h : c = a <;> simp [h]

theorem cellsFind_outside (a n : Nat) (cs : List Host.Cell) (c : Nat) :
    cellsFind (cellsOutside a n cs) c = if a ≤ c ∧ c < a + n then none else cellsFind cs c := by
  unfold cellsOutside
  rw [cellsFind_filter (fun k => !(decide (a ≤ k) && decide (k < a + n)))]
  by_cases h : a ≤ c ∧ c < a + n
  · simp [h]
  · rw [if_neg h, if_pos]; simp; omega

theorem cellsFind_inside (a n : Nat) (cs : List Host.Cell) (c : Nat) :
    cellsFind (cellsInside a n cs) c = if a ≤ c ∧ c < a + n then cellsFind cs c else none := by
  unfold cellsInside
  rw [cellsFind_filter (fun k => (decide (a ≤ k) && decide (k < a + n)))]
  by_cases h : a ≤ c ∧ c < a + n
  · simp [h]
  · rw [if_neg h, if_neg]; simp; omega

theorem cellsFind_none {cs : List Host.Cell} {a : Nat} (h : ∀ x ∈ cs, a < x.1) : cellsFind cs a = none := by
  rw [cellsFind, List.lookup_eq_none_iff]
  intro y hy; have := h y hy; simp; omega

theorem cellsPut_mem {a : Nat} {v : Byte} {cs : List Host.Cell} {x : Host.Cell} (h : x ∈ cellsPut a v cs) :
    x = (a, v) ∨ x ∈ cs := by
  induction cs with
  | nil => simpa [cellsPut] using h
  | cons y ys ih =>
    unfold cellsPut at h
    split at h
    · simpa using h
    · split at h
      · simp at h ⊢; tauto
      · simp at h ⊢; rcases h with h | h
        · tauto
        · have := ih h; tauto

theorem cellsSorted_put {a : Nat} {cs : List Host.Cell} (v : Byte) (hs : cellsSorted cs) (ha : a < dataSpace) :
    cellsSorted (cellsPut a v cs) := by
  obtain ⟨hp, hb⟩ := hs
  refine ⟨?_, fun x hx => by rcases cellsPut_mem hx with rfl | h; exacts [ha, hb x h]⟩
  induction cs with
  | nil => simp [cellsPut]
  | cons y ys ih =>
    rw [List.pairwise_cons] at hp
    unfold cellsPut
    split
    · rename_i hlt
      rw [List.pairwise_cons]
      refine ⟨fun z hz => ?_, List.pairwise_cons.mpr hp⟩
      rcases List.mem_cons.mp hz with rfl | hz
      · exact hlt
      · exact lt_trans hlt (hp.1 z hz)
    · split
      · rename_i h1 h2
        subst h2
        exact List.pairwise_cons.mpr hp
      · rename_i h1 h2
        rw [List.pairwise_cons]
        refine ⟨fun z hz => ?_, ih hp.2 fun x hx => hb x (List.mem_cons_of_mem _ hx)⟩
        rcases cellsPut_mem hz with rfl | hz
        · show y.1 < a; omega
        · exact hp.1 z hz

theorem cellsSorted_putAll (bs : List Byte) : ∀ {cs : List Host.Cell} {a : Nat}, cellsSorted cs → a + bs.length ≤ dataSpace →
    cellsSorted (cellsPutAll cs a bs) := by
  induction bs with
  | nil => intro m a h _; exact h
  | cons b bs ih =>
    intro m a h ha
    simp only [List.length_cons] at ha
    exact ih (cellsSorted_put b h (by omega)) (by omega)

theorem cellsSorted_filter {cs : List Host.Cell} (p : Host.Cell → Bool) (hs : cellsSorted cs) : cellsSorted (cs.filter p) :=
  ⟨hs.1.filter p, fun x hx => hs.2 x (List.mem_of_mem_filter hx)⟩

theorem cellsSorted_inside {cs : List Host.Cell} (a n : Nat) (hs : cellsSorted cs) : cellsSorted (cellsInside a n cs) :=
  cellsSorted_filter _ hs

theorem cellsSorted_outside {cs : List Host.Cell} (a n : Nat) (hs : cellsSorted cs) : cellsSorted (cellsOutside a n cs) :=
  cellsSorted_filter _ hs

theorem Memory.read_write (m : Memory) (a c : Nat) (v : Byte) :
    (m.write a v).read c = if c = a then v else m.read c := by
  unfold Memory.read Memory.write
  split
  · rw [cellsFind_drop]; split <;> simp_all
  · rw [cellsFind_put]; split <;> simp_all

theorem Memory.read_writeAll (bs : List Byte) : ∀ (m : Memory) (a c : Nat),
    (m.writeAll a bs).read c = if h : a ≤ c ∧ c < a + bs.length then bs[c - a]'(by omega) else m.read c := by
  induction bs with
  | nil => intro m a c; simp [Memory.writeAll]
  | cons b bs ih =>
    intro m a c
    rw [Memory.writeAll, ih]
    by_cases h1 : c = a
    · subst h1; simp [Memory.read_write]
    · rw [Memory.read_write, if_neg h1]
      by_cases h2 : a + 1 ≤ c ∧ c < a + 1 + bs.length
      · rw [dif_pos h2, dif_pos (by simp; omega)]
        rw [List.getElem_cons]; rw [dif_neg (by omega)]
        congr 1
      · rw [dif_neg h2, dif_neg (by simp; omega)]

theorem cellsFind_putAll (bs : List Byte) : ∀ (cs : List Host.Cell) (a c : Nat),
    cellsFind (cellsPutAll cs a bs) c = if h : a ≤ c ∧ c < a + bs.length then some (bs[c - a]'(by omega)) else cellsFind cs c := by
  induction bs with
  | nil => intro cs a c; simp [cellsPutAll]
  | cons b bs ih =>
    intro cs a c
    rw [cellsPutAll, ih]
    by_cases h1 : c = a
    · subst h1; simp [cellsFind_put]
    · rw [cellsFind_put, if_neg h1]
      by_cases h2 : a + 1 ≤ c ∧ c < a + 1 + bs.length
      · rw [dif_pos h2, dif_pos (by simp; omega)]
        rw [List.getElem_cons]; rw [dif_neg (by omega)]
        congr 2
      · rw [dif_neg h2, dif_neg (by simp; omega)]

theorem Memory.read_writeCells (cs : List Host.Cell) : ∀ (m : Memory) (c : Nat), cs.Pairwise (fun x y => x.1 < y.1) →
    (m.writeCells cs).read c = (cellsFind cs c).getD (m.read c) := by
  induction cs with
  | nil => intro m c _; rfl
  | cons x xs ih =>
    intro m c hp
    rw [List.pairwise_cons] at hp
    rw [Memory.writeCells, ih _ _ hp.2, Memory.read_write, cellsFind_cons]
    by_cases h : c = x.1
    · have : cellsFind xs c = none := by
        rw [cellsFind, List.lookup_eq_none_iff]
        intro y hy; have := hp.1 y hy; simp; omega
      simp [h, h ▸ this]
    · simp [h]

theorem Memory.wf_write {m : Memory} {a : Nat} (v : Byte) (h : m.wf) (ha : a < dataSpace) : (m.write a v).wf := by
  unfold Memory.write
  split
  · exact ⟨cellsSorted_filter _ h.1, fun x hx => h.2 x (List.mem_of_mem_filter hx)⟩
  · rename_i hv
    exact ⟨cellsSorted_put v h.1 ha, fun x hx => by rcases cellsPut_mem hx with rfl | hx; exacts [hv, h.2 x hx]⟩

theorem Memory.wf_writeAll (bs : List Byte) : ∀ {m : Memory} {a : Nat}, m.wf → a + bs.length ≤ dataSpace → (m.writeAll a bs).wf := by
  induction bs with
  | nil => intro m a h _; exact h
  | cons b bs ih =>
    intro m a h ha
    simp only [List.length_cons] at ha
    exact ih (Memory.wf_write b h (by omega)) (by omega)

theorem Memory.wf_writeCells (cs : List Host.Cell) : ∀ {m : Memory}, m.wf → (∀ c ∈ cs, c.1 < dataSpace) → (m.writeCells cs).wf := by
  induction cs with
  | nil => intro m h _; exact h
  | cons c cs ih =>
    intro m h hc
    exact ih (Memory.wf_write c.2 h (hc c (by simp))) fun x hx => hc x (List.mem_cons_of_mem _ hx)

theorem cells_ext : ∀ {cs ds : List Host.Cell}, cs.Pairwise (fun x y => x.1 < y.1) → ds.Pairwise (fun x y => x.1 < y.1) →
    (∀ a, cellsFind cs a = cellsFind ds a) → cs = ds := by
  intro cs
  induction cs with
  | nil =>
    intro ds _ _ h
    cases ds with
    | nil => rfl
    | cons y ys => have := h y.1; simp [cellsFind_cons, cellsFind_nil] at this
  | cons x xs ih =>
    intro ds hc hd h
    cases ds with
    | nil => have := h x.1; simp [cellsFind_cons, cellsFind_nil] at this
    | cons y ys =>
      rw [List.pairwise_cons] at hc hd
      have hxy : x.1 = y.1 := by
        rcases Nat.lt_trichotomy x.1 y.1 with hl | he | hl
        · have := h x.1
          rw [cellsFind_cons, if_pos rfl, cellsFind_cons, if_neg (by omega), cellsFind_none] at this
          · simp at this
          · intro z hz; have := hd.1 z hz; omega
        · exact he
        · have := h y.1
          rw [cellsFind_cons, cellsFind_cons, if_pos rfl, if_neg (by omega), cellsFind_none] at this
          · simp at this
          · intro z hz; have := hc.1 z hz; omega
      have hv : x.2 = y.2 := by
        have := h x.1; rw [cellsFind_cons, if_pos rfl, cellsFind_cons, if_pos hxy] at this; simpa using this
      have : x = y := Prod.ext hxy hv
      subst this
      congr 1
      refine ih hc.2 hd.2 fun a => ?_
      by_cases ha : a = x.1
      · rw [cellsFind_none, cellsFind_none] <;> (intro z hz; first | (have := hc.1 z hz; omega) | (have := hd.1 z hz; omega))
      · have := h a; rwa [cellsFind_cons, cellsFind_cons, if_neg ha, if_neg ha] at this

theorem cellsFind_of_wf {m : Memory} (h : m.wf) (a : Nat) :
    cellsFind m a = if m.read a = unlistedByte then none else some (m.read a) := by
  unfold Memory.read
  cases hf : cellsFind m a with
  | none => simp
  | some v =>
    have : (a, v) ∈ m := by
      clear h
      induction m with
      | nil => simp [cellsFind_nil] at hf
      | cons x xs ih =>
        rw [cellsFind_cons] at hf
        split at hf
        · rename_i hx; simp at hf; subst hf; subst hx; simp
        · exact List.mem_cons_of_mem _ (ih hf)
    have := h.2 _ this
    simp at this; simp [this]

end Sys2Proof.Machine
end

