-- ==== Sys2Proof/Laws/Steps.lean ====
section
/-! SUPPORT. What a step can do: an access at a free window and at a busy one, the accesses that a turn can perform, every case of a step
that goes on, and the runs of many steps. -/

namespace Sys2Proof.Machine

theorem slotAt_none {k : Nat} (h : k % 4 ≠ 0) : slotAt k = none := by
  unfold slotAt; split <;> first | rfl | (simp at h)

theorem slotAt_offset {k : Nat} {r : Slot} (h : slotAt k = some r) : k = r.offset := by
  unfold slotAt at h; split at h <;> simp at h <;> subst h <;> rfl

theorem target_slot (base h : Nat) (r : Slot) (op : BusOp) : Access.target base { host := h, addr := base + r.offset, width := .word, op := op } = .slot r := by
  unfold Access.target
  rw [if_neg (by simp only [AccessWidth.bytes]; cases r <;> simp only [Slot.offset] <;> omega), if_pos (by simp)]
  simp only [Nat.add_sub_cancel_left]
  cases r <;> rfl

theorem freeFor_iff (s : State) (h : Nat) : s.freeFor h = true ↔ s.busy = false ∧ s.held.any (fun x => x.access.host == h) = false := by
  simp [State.freeFor]

/-- All that the window can do in an access that goes on. -/
theorem performAccess_cases {a : Access} {alone : Bool} {s t : State} (h : performAccess a alone s = .next t) :
    t = s ∨ (∃ r, a.op = .read ∧ a.target s.platform.regBase = .slot r ∧ t = s.respond (.readData a.host (s.readSlot r))) ∨
    (∃ v r, a.op = .write v ∧ a.target s.platform.regBase = .slot r ∧ r ≠ .cmd ∧
      t = (s.writeSlot v r).respond (.writeDone a.host)) ∨
    (∃ w, a.op = .write w ∧ a.target s.platform.regBase = .slot .cmd ∧
      issueCommand w alone { s with master := a.host } = .next t) := by
  unfold performAccess at h
  cases ht : a.target s.platform.regBase with
  | outside => rw [ht] at h; injection h with h; exact .inl h.symm
  | badShape => rw [ht] at h; cases h
  | slot r =>
    rw [ht] at h
    cases ho : a.op with
    | read => rw [ho] at h; injection h with h; exact .inr (.inl ⟨r, rfl, rfl, h.symm⟩)
    | write v =>
      rw [ho] at h
      simp only at h
      split at h
      · rename_i hr; subst hr
        exact .inr (.inr (.inr ⟨v, rfl, rfl, h⟩))
      · rename_i hr
        injection h with h
        exact .inr (.inr (.inl ⟨v, r, rfl, rfl, hr, h.symm⟩))

theorem grantHeld_cases {k : Nat} {s t : State} (h : grantHeld k s = .next t) :
    t = s ∨ (s.busy = false ∧ ∃ y ∈ s.held, ∃ rest, rest.Sublist s.held ∧ performAccess y.access y.alone { s with held := rest } = .next t) := by
  unfold grantHeld at h
  split at h
  · injection h with h; exact .inl h.symm
  · rename_i hb
    split at h
    · injection h with h; exact .inl h.symm
    · split at h
      · injection h with h; exact .inl h.symm
      · rename_i x hx y hy
        exact .inr ⟨by simpa using hb, y, List.mem_of_find?_eq_some hy, _, List.eraseP_sublist, h⟩

theorem arriveAccess_cases {a : Access} {alone : Bool} {s t : State} (h : arriveAccess a alone s = .next t) :
    t = s ∨ (∃ r, a.target s.platform.regBase = .slot r ∧ t = s.holdAccess { access := a, alone := alone }) ∨ (s.busy = false ∧ performAccess a alone s = .next t) := by
  unfold arriveAccess at h
  cases ht : a.target s.platform.regBase with
  | outside => rw [ht] at h; injection h with h; exact .inl h.symm
  | badShape => rw [ht] at h; cases h
  | slot r =>
    rw [ht] at h
    simp only at h
    split at h
    · injection h with h; exact .inr (.inl ⟨r, rfl, h.symm⟩)
    · rename_i hb; simp at hb; exact .inr (.inr ⟨hb.1, h⟩)

theorem arriveAccess_busy {a : Access} {alone : Bool} {s : State} {r : Slot} (ht : a.target s.platform.regBase = .slot r) (hb : s.busy = true) :
    arriveAccess a alone s = .next (s.holdAccess { access := a, alone := alone }) := by
  simp [arriveAccess, ht, hb]

/-- Every case of a step that goes on. -/
theorem step_cases {s t : State} (h : step s = .next t) :
    ∃ rest, (s.script = [] ∧ rest = [] ∨ ∃ x, s.script = x :: rest) ∧
    ((t = { s with script := rest } ∧ True) ∨
     (s.resetAsserted = false ∧ t = engineTurn { s with script := rest }) ∨
     (∃ a alone, s.script = .access a alone :: rest ∧ ∃ r, a.target s.platform.regBase = .slot r ∧ t = { s with script := rest }.holdAccess { access := a, alone := alone }) ∨
     (s.busy = false ∧ ∃ a alone hd, (s.script = .access a alone :: rest ∧ hd = s.held ∨ (∃ y ∈ s.held, y.access = a ∧ y.alone = alone) ∧ hd.Sublist s.held) ∧
        performAccess a alone { s with script := rest, held := hd } = .next t) ∨
     (∃ m d, t = { s with script := rest, mem := m, dirty := d } ∧
        ((∃ host a bs, s.script = .store host a bs :: rest ∧ a.toNat + bs.length ≤ dataSpace ∧ m = s.mem.writeAll a.toNat bs ∧ d = cellsOutside a.toNat bs.length s.dirty) ∨
         (∃ host a bs, s.script = .storeCached host a bs :: rest ∧ a.toNat + bs.length ≤ dataSpace ∧ m = s.mem ∧ d = cellsPutAll s.dirty a.toNat bs) ∨
         (∃ host a n, s.script = .clean host a n :: rest ∧ m = s.mem.writeCells (cellsInside a.toNat n s.dirty) ∧ d = cellsOutside a.toNat n s.dirty) ∨
         (∃ a v, s.script = .masterWrite a v :: rest ∧ m = s.mem.write a.toNat v ∧ d = cellsOutside a.toNat 1 s.dirty))) ∨
     (∃ host a v, s.script = .load16 host a :: rest ∧ t = { s with script := rest }.respond (.loaded host v)) ∨
     (s.script = .resetAssert :: rest ∧ t = ({ s with script := rest } : State).assertReset) ∨
     (s.script = .resetRelease :: rest ∧ s.resetAsserted = true ∧ t = ({ s with script := rest } : State).releaseReset)) := by
  unfold step at h
  split at h
  · rename_i hs
    refine ⟨[], .inl ⟨hs, rfl⟩, ?_⟩
    have hself : ({ s with script := [] } : State) = s := by cases s; simp_all
    rw [hself]
    unfold quietTurn at h
    split at h
    · injection h with h; exact .inl ⟨h.symm, trivial⟩
    · rename_i hr
      split at h
      · injection h with h; exact .inr (.inl ⟨by simpa using hr, h.symm⟩)
      · rcases grantHeld_cases h with h | ⟨hb, y, hy, rest, hsub, hp⟩
        · exact .inl ⟨h, trivial⟩
        · refine .inr (.inr (.inr (.inl ⟨hb, y.access, y.alone, rest, .inr ⟨⟨y, hy, rfl, rfl⟩, hsub⟩, ?_⟩)))
          have : ({ s with held := rest, script := [] } : State) = { s with held := rest } := by cases s; simp_all
          rw [← this] at hp; exact hp
  · rename_i x rest hs
    refine ⟨rest, .inr ⟨x, hs⟩, ?_⟩
    cases x with
    | access a alone =>
      rcases arriveAccess_cases h with h | ⟨r, ht, h⟩ | ⟨hb, h⟩
      · exact .inl ⟨h, trivial⟩
      · exact .inr (.inr (.inl ⟨a, alone, hs, r, ht, h⟩))
      · exact .inr (.inr (.inr (.inl ⟨hb, a, alone, s.held, .inl ⟨hs, rfl⟩, h⟩)))
    | disordered _ => cases h
    | grant k =>
      rcases grantHeld_cases h with h | ⟨hb, y, hy, hd, hsub, hp⟩
      · exact .inl ⟨h, trivial⟩
      · exact .inr (.inr (.inr (.inl ⟨hb, y.access, y.alone, hd, .inr ⟨⟨y, hy, rfl, rfl⟩, hsub⟩, hp⟩)))
    | engine =>
      simp only [takeTurn] at h
      split at h <;> injection h with h
      · exact .inl ⟨h.symm, trivial⟩
      · rename_i hr; exact .inr (.inl ⟨by simpa using hr, h.symm⟩)
    | store host a bs =>
      simp only [takeTurn, storeBytes] at h; split at h
      · rename_i hin; injection h with h
        exact .inr (.inr (.inr (.inr (.inl ⟨_, _, h.symm, .inl ⟨host, a, bs, hs, by simpa [insideDataSpace] using hin, rfl, rfl⟩⟩))))
      · cases h
    | storeCached host a bs =>
      simp only [takeTurn, storeCachedBytes] at h; split at h
      · rename_i hin; injection h with h
        exact .inr (.inr (.inr (.inr (.inl ⟨s.mem, _, h.symm, .inr (.inl ⟨host, a, bs, hs, by simpa [insideDataSpace] using hin, rfl, rfl⟩)⟩))))
      · cases h
    | clean host a n =>
      simp only [takeTurn, cleanBytes] at h; split at h
      · injection h with h
        exact .inr (.inr (.inr (.inr (.inl ⟨_, _, h.symm, .inr (.inr (.inl ⟨host, a, n, hs, rfl, rfl⟩))⟩))))
      · cases h
    | load16 host a =>
      simp only [takeTurn, loadHalf] at h; split at h
      · injection h with h
        exact .inr (.inr (.inr (.inr (.inr (.inl ⟨host, a, _, hs, h.symm⟩)))))
      · cases h
    | masterWrite a v =>
      injection h with h
      exact .inr (.inr (.inr (.inr (.inl ⟨_, _, h.symm, .inr (.inr (.inr ⟨a, v, hs, rfl, rfl⟩))⟩))))
    | resetAssert => injection h with h; exact .inr (.inr (.inr (.inr (.inr (.inr (.inl ⟨hs, h.symm⟩))))))
    | resetRelease =>
      injection h with h
      by_cases hr : s.resetAsserted = true
      · exact .inr (.inr (.inr (.inr (.inr (.inr (.inr ⟨hs, hr, h.symm⟩))))))
      · refine .inl ⟨?_, trivial⟩
        rw [← h]; unfold State.releaseReset; rw [if_neg hr]

theorem step_free_access {s : State} {h : Nat} {r : Slot} {op : BusOp} {alone : Bool} {rest : List Turn}
    (hs : s.script = .access { host := h, addr := s.platform.regBase + r.offset, width := .word, op := op } alone :: rest)
    (hf : s.freeFor h = true) :
    step s = performAccess { host := h, addr := s.platform.regBase + r.offset, width := .word, op := op } alone { s with script := rest } := by
  obtain ⟨h1, h2⟩ := (freeFor_iff s h).mp hf
  have h1' : ({ s with script := rest } : State).busy = false := h1
  simp only [step, hs, takeTurn, arriveAccess, target_slot]
  rw [if_neg]
  simp [h1', h2]

theorem step_free_write {s : State} {h : Nat} {r : Slot} {v : Word} {alone : Bool} {rest : List Turn}
    (hs : s.script = .access { host := h, addr := s.platform.regBase + r.offset, width := .word, op := .write v } alone :: rest)
    (hf : s.freeFor h = true) :
    step s = if r = .cmd then issueCommand v alone { s with script := rest, master := h } else .next (({ s with script := rest }.writeSlot v r).respond (.writeDone h)) := by
  rw [step_free_access hs hf]
  simp only [performAccess, target_slot]

theorem step_free_read {s : State} {h : Nat} {r : Slot} {alone : Bool} {rest : List Turn}
    (hs : s.script = .access { host := h, addr := s.platform.regBase + r.offset, width := .word, op := .read } alone :: rest)
    (hf : s.freeFor h = true) :
    step s = .next ({ s with script := rest }.respond (.readData h (s.readSlot r))) := by
  rw [step_free_access hs hf]
  simp only [performAccess, target_slot]
  cases r <;> rfl

theorem core_run_next (M : Host.Core) (k : Nat) {s s' : M.State} (h : M.step s = .next s') : M.run (k + 1) s = M.run k s' :=
  (Host.Core.run.eq_2 M s k).trans (by rw [h])

theorem run_next (k : Nat) {s s' : State} (h : step s = .next s') : Sys2Proof.core.run (k + 1) s = Sys2Proof.core.run k s' :=
  core_run_next Sys2Proof.core k h

theorem run_quiet_turns (k : Nat) : ∀ s : State, s.script = [] → s.resetAsserted = false → s.held = [] → 
   Sys2Proof.core.run k s = .next (engineTurns k s) := by
  induction k with
  | zero => intro s _ _ _; rfl
  | succ k ih =>
    intro s h1 h2 h3
    have hst : step s = .next (engineTurn s) := by
      simp only [step, h1, quietTurn, h2]
      cases hp : s.phase with
      | idle => simp [grantHeld, State.busy, hp, h2, h3, engineTurn_idle hp]
      | exec e => simp
    have hf := engineTurn_frame s
    refine (run_next k hst).trans ?_
    exact ih _ (hf.env.2.2.2.1.trans h1) (hf.env.2.2.2.2.2.1.trans h2) (hf.env.2.2.2.2.2.2.trans h3)

theorem run_exec_turns (k : Nat) : ∀ s : State, s.script = [] → s.resetAsserted = false → (∀ j < k, (engineTurns j s).phase ≠ .idle) →
   Sys2Proof.core.run k s = .next (engineTurns k s) := by
  induction k with
  | zero => intro s _ _ _; rfl
  | succ k ih =>
    intro s h1 h2 h3
    have hst : step s = .next (engineTurn s) := by
      simp only [step, h1, quietTurn, h2]
      cases hp : s.phase with
      | idle => exact absurd hp (h3 0 (by omega))
      | exec e => simp
    have hf := engineTurn_frame s
    refine (run_next k hst).trans ?_
    exact ih _ (hf.env.2.2.2.1.trans h1) (hf.env.2.2.2.2.2.1.trans h2) (fun j hj => h3 (j + 1) (by omega))

end Sys2Proof.Machine
end

