-- ==== Sys2Proof/Tests/Slice0.lean ====
section
/-! SUPPORT. Checks of the model against the spec's own vectors (95_test_vectors.md; the words of 30_encoding.md rule R57), and one
witness for every statement that has hypotheses: concrete states and operands that meet all of them. -/

namespace Sys2Proof.Tests

open Sys2Proof Sys2Proof.Machine

/-! ### Well-formedness: what is ill-formed is refused -/

theorem test_wellFormed_refuses_hwords16 : (Instr.csumIphdr 16).WellFormed = false := by decide

theorem test_wellFormed_refuses_line : (HostLine.cmd (.csumIphdr 16)).WellFormed = false := by decide

theorem test_wellFormed_admits_hwords15 : (Instr.csumIphdr 15).WellFormed = true := by decide

/-! ### Decoding: words written out bit by bit from 30_encoding.md rules R54 and R57 -/

theorem test_decode_csumInet : decode 0b00000000000000000000000000000001#32 = .command .csumInet := by decide

theorem test_decode_csumIphdr : decode 0b00000000000000000000000001010010#32 = .command (.csumIphdr 5) := by decide

theorem test_decode_csumUdp : decode 0b00000000000000000000000000000011#32 = .command .csumUdp := by decide

theorem test_decode_reservedBit8 : decode 0b00000000000000000000000100000001#32 = .illegal .reservedBits := by decide

theorem test_decode_strayHwords : decode 0b00000000000000000000000000010011#32 = .illegal .strayHwords := by decide

theorem test_decode_op0 : decode 0b00000000000000000000000000000000#32 = .illegal .reservedOp := by decide

theorem test_encode_csumIphdr : encode (.csumIphdr 15) = 0x000000F2#32 := by decide

theorem test_tableWord : decodeTableWord 32 0xF2 = some (.csumIphdr 15) ∧ decodeTableWord 32 0x100 = none ∧
    decodeTableWord 8 0x103 = some .csumUdp := by decide

/-! ### One command from reset, against 95_test_vectors.md sections 2.1 to 2.4 -/

/-- RESULT and STATUS after a step that goes on. -/
def outcome : Host.Outcome State Fault Refusal → Option (Half × Word)
  | .next t => some (t.result, statusWord t.done t.err t.sticky t.errcode)
  | _ => none

/-- STATUS alone. -/
def status (o : Host.Outcome State Fault Refusal) : Option Word := (outcome o).map Prod.snd

/-- Memory that holds the given bytes from `a`, and nothing else. -/
def memoryAt (a : Nat) (bs : List Byte) : Memory := Memory.writeAll [] a bs

/-- The reset state with memory, ADDR and LEN set. -/
def ready (a len : Word) (bs : List Byte) : State := { State.reset with addr := a, len := len, mem := memoryAt a.toNat bs }

/-- The state in which the next step issues `w`. -/
def issue (w : Nat) (s : State) : Host.Outcome State Fault Refusal := step (s.withFetchWord 32 w)

/-- V-INET-08: eight bytes with carries. -/
theorem test_inet_08 : outcome (issue 0x1 (ready 0x1000#32 8#32
    [0x00#8, 0x01#8, 0xF2#8, 0x03#8, 0xF4#8, 0xF5#8, 0xF6#8, 0xF7#8])) = some (0xDDF2#16, 0x1#32) := by decide

/-- V-INET-14 at an odd address (also program P4). -/
theorem test_inet_14 : outcome (issue 0x1 (ready 0x1001#32 5#32
    [0x01#8, 0x02#8, 0x03#8, 0x04#8, 0x05#8])) = some (0x0906#16, 0x1#32) := by decide

/-- V-IPH-02: the textbook header. -/
theorem test_iphdr_02 : outcome (issue 0x52 (ready 0x2000#32 0#32
    [0x45#8, 0x00#8, 0x00#8, 0x73#8, 0x00#8, 0x00#8, 0x40#8, 0x00#8, 0x40#8, 0x11#8,
     0x00#8, 0x00#8, 0xC0#8, 0xA8#8, 0x00#8, 0x01#8, 0xC0#8, 0xA8#8, 0x00#8, 0xC7#8])) = some (0xB861#16, 0x1#32) := by decide

/-- V-IPH-01: no header words. -/
theorem test_iphdr_01 : outcome (issue 0x2 State.reset) = some (0xFFFF#16, 0x1#32) := by decide

/-- V-UDP-04: an odd datagram, addresses 192.168.1.1 and 192.168.1.2. -/
theorem test_udp_04 : outcome (issue 0x3 { ready 0x3000#32 11#32
    [0x04#8, 0xD2#8, 0x16#8, 0x2E#8, 0x00#8, 0x0B#8, 0x00#8, 0x00#8, 0x54#8, 0x45#8, 0x53#8] with
      ipsrc := 0xC0A80101#32
      ipdst := 0xC0A80102#32 }) = some (0xBA3E#16, 0x1#32) := by decide

/-- V-UDP-09: a computed zero is returned as zero. -/
theorem test_udp_09 : outcome (issue 0x3 (ready 0x3000#32 2#32 [0xFF#8, 0xEC#8])) = some (0x0000#16, 0x1#32) := by decide

/-- V-ERR-08, and V-ERR-15: an illegal word wins over a range that passes the top. -/
theorem test_err_illegal : outcome (issue 0xFFFFFFFF State.reset) = some (0x0000#16, 0x16#32) ∧
    outcome (issue 0x101 (ready 0xFFFFFFFF#32 2#32 [])) = some (0x0000#16, 0x16#32) := by decide

/-- V-ERR-09 and V-ERR-10: a range past the top, and one that ends at it. -/
theorem test_err_top : outcome (issue 0x1 (ready 0xFFFFFFFF#32 2#32 [])) = some (0x0000#16, 0x26#32) ∧
    outcome (issue 0x1 (ready 0xFFFFFFFE#32 2#32 [0x12#8, 0x34#8])) = some (0x1234#16, 0x1#32) := by decide

/-- V-ERR-12 and V-ERR-13: LEN 0xFFFFFFFF is unsigned for CSUM_UDP and negative for CSUM_INET. -/
theorem test_err_len : outcome (issue 0x3 (ready 0x10#32 0xFFFFFFFF#32 [])) = some (0x0000#16, 0x26#32) ∧
    outcome (issue 0x1 (ready 0x10#32 0xFFFFFFFF#32 [])) = some (0x0000#16, 0x1#32) := by decide

/-- A draw that answers with a bus error. -/
def busDraw : ReadDraw := { pick := 1, answer := .busError, seesDirty := false, stop := true }

/-- V-ERR-14: one read is answered with a bus error. -/
theorem test_err_bus : status (issue 0x1 { ready 0x6000#32 4#32 [] with draws := [busDraw] }) = some 0x36#32 := by decide

/-- V-ERR-16: STICKY is kept by a command that completes. -/
theorem test_err_sticky : outcome (issue 0x1 { State.reset with err := true, sticky := true, errcode := 2#4 }) =
    some (0x0000#16, 0x5#32) := by decide

/-! ### Register accesses and reset, against 95_test_vectors.md sections 2.5 and 2.6 -/

/-- Host 1's access of 32 bits at an offset of the window (REG_BASE is 0 here). -/
def access (off : Nat) (op : BusOp) : Turn := .access { host := 1, addr := off, width := .word, op := op } true

/-- The state with its next turns. -/
def turns (ts : List Turn) (s : State) : State := { s with script := ts }

/-- The last answer of the bus. -/
def answered : Host.Outcome State Fault Refusal → Option Response
  | .next t => t.responses.getLast?
  | _ => none

/-- Whether a step is refused for the shape of an access. -/
def refusedShape : Host.Outcome State Fault Refusal → Bool
  | .refused .accessShape => true
  | _ => false

/-- STATUS 0x26. -/
def failed : State := { State.reset with err := true, sticky := true, errcode := 2#4 }

/-- V-REG-05 and V-REG-06: bit 2 of a STATUS write clears STICKY alone. -/
theorem test_reg_status : status (step (turns [access 0x18 (.write 0xFFFFFFFB#32)] failed)) = some 0x26#32 ∧
    status (step (turns [access 0x18 (.write 0xFFFFFFFF#32)] failed)) = some 0x22#32 := by decide

/-- V-REG-04: RESULT is read-only. -/
theorem test_reg_result :
    outcome (step (turns [access 0x14 (.write 0x12345678#32)] { State.reset with result := 0xB861#16 })) =
      some (0xB861#16, 0#32) ∧
    answered (step (turns [access 0x14 .read] { State.reset with result := 0xB861#16 })) =
      some (.readData 1 0x0000B861#32) := by decide

/-- V-REG-09: a byte write to LEN is refused. -/
theorem test_reg_byte : refusedShape (step (turns
    [.access { host := 1, addr := 8, width := .byte, op := .write 0#32 } true] State.reset)) = true := by decide

/-- A CSUM_INET in execution at a read that is never answered. -/
def hungExec : Exec where
  issuer := 1
  cmd := 0x1#32
  opAddr := 0x6000#32
  opLen := 1#32
  opSrc := 0#32
  opDst := 0#32
  pending := []
  bytes := []
  acc := 0#64
  error := none
  stalled := some 0

/-- The machine that hangs there. -/
def hung : State := { State.reset with addr := 0x6000#32, len := 1#32, phase := .exec hungExec }

/-- V-RST-02: reset ends a hung command; the CMD write completes, with no outcome. -/
theorem test_rst_02 : outcome (step (turns [.resetAssert] hung)) = some (0#16, 0#32) ∧
    answered (step (turns [.resetAssert] hung)) = some (.writeDone 1) := by decide

/-- Program P5, first line: a host's own network-order read. -/
theorem test_mrd16 : answered (step (turns [.load16 1 0x500A#32] { State.reset with mem := memoryAt 0x500A [0xB8#8, 0x62#8] })) =
    some (.loaded 1 0xB862#16) := by decide

/-! ### Witnesses: the command word -/

theorem witness_DecodeEncodeIsIdentity : (Instr.csumIphdr 0).WellFormed = true ∧ (Instr.csumIphdr 15).WellFormed = true := by decide

theorem witness_DecodedWordIsItsEncoding : decode 0x000000F2#32 = .command (.csumIphdr 15) := by decide

theorem witness_LegalWordsMatchOpcodeMap : decode 0x1#32 = .command .csumInet ∧ decode 0x2#32 = .command (.csumIphdr 0) ∧
    decode 0xF2#32 = .command (.csumIphdr 15) ∧ decode 0x3#32 = .command .csumUdp := by decide

/-! ### Witnesses: the arithmetic -/

theorem witness_FoldIsRepeatedHalfAddition : (halfAdd 16)^[1] 0x10000 < 0x10000 ∧ 0 < 0xFFFF ∧ 0xFFFF % 0xFFFF = 0 := by decide

theorem witness_SumIsFreeOfOrderAndGrouping : ([1, 2, 3] : List Nat).Perm [[3], [], [1, 2]].flatten := by decide

/-- Bytes 12 34 00 00. -/
def unfilled (i : Nat) : Byte := if i = 0 then 0x12#8 else if i = 1 then 0x34#8 else 0x00#8

/-- The same with the checksum 0xEDCB in bytes 2 and 3. -/
def filled (i : Nat) : Byte := if i = 2 then 0xED#8 else if i = 3 then 0xCB#8 else unfilled i

theorem witness_FilledChecksumVerifies : 2 * 1 + 1 < 4 ∧ unfilled (2 * 1) = 0x00#8 ∧ unfilled (2 * 1 + 1) = 0x00#8 ∧
    (∀ i, i ≠ 2 * 1 → i ≠ 2 * 1 + 1 → filled i = unfilled i) ∧
    networkHalf (filled (2 * 1)) (filled (2 * 1 + 1)) = iphdrValue unfilled 4 := by
  refine ⟨by decide, by decide, by decide, fun i h2 h3 => ?_, by decide⟩
  unfold filled
  rw [if_neg h2, if_neg h3]

/-- The bytes 12 34 00 00 with the top bit of byte 0 changed. -/
def flipped (i : Nat) : Byte := if i = 0 then 0x92#8 else unfilled i

theorem witness_SingleBitChangeIsSeen : 0 < 4 ∧ 7 < 8 ∧ (∀ k, k ≠ 0 → flipped k = unfilled k) ∧
    flipped 0 = unfilled 0 ^^^ (0x01#8 <<< 7) := by
  refine ⟨by decide, by decide, fun k h => ?_, by decide⟩
  unfold flipped
  rw [if_neg h]

/-- A datagram of 8 bytes with the first two given and the rest zero. -/
def datagram (v0 v1 : Byte) (i : Nat) : Byte := if i = 0 then v0 else if i = 1 then v1 else 0x00#8

/-- The datagram with its field, bytes 6 and 7, filled. -/
def datagramFilled (v0 v1 c0 c1 : Byte) (i : Nat) : Byte := if i = 6 then c0 else if i = 7 then c1 else datagram v0 v1 i

theorem datagramFilled_same (v0 v1 c0 c1 : Byte) (i : Nat) (h6 : i ≠ 6) (h7 : i ≠ 7) :
    datagramFilled v0 v1 c0 c1 i = datagram v0 v1 i := by
  unfold datagramFilled
  rw [if_neg h6, if_neg h7]

theorem witness_FilledDatagramVerifies : 7 < 8 ∧ datagram 0#8 0#8 6 = 0x00#8 ∧ datagram 0#8 0#8 7 = 0x00#8 ∧
    (∀ i, i ≠ 6 → i ≠ 7 → datagramFilled 0#8 0#8 0xFF#8 0xE6#8 i = datagram 0#8 0#8 i) ∧
    networkHalf (datagramFilled 0#8 0#8 0xFF#8 0xE6#8 6) (datagramFilled 0#8 0#8 0xFF#8 0xE6#8 7) =
      udpValue (datagram 0#8 0#8) 8 0#32 0#32 8#32 :=
  ⟨by decide, by decide, by decide, datagramFilled_same _ _ _ _, by decide⟩

theorem witness_FilledDatagramVerifies_zero : datagram 0xFF#8 0xE6#8 6 = 0x00#8 ∧ datagram 0xFF#8 0xE6#8 7 = 0x00#8 ∧
    (∀ i, i ≠ 6 → i ≠ 7 → datagramFilled 0xFF#8 0xE6#8 0xFF#8 0xFF#8 i = datagram 0xFF#8 0xE6#8 i) ∧
    udpValue (datagram 0xFF#8 0xE6#8) 8 0#32 0#32 8#32 = 0x0000#16 ∧
    networkHalf (datagramFilled 0xFF#8 0xE6#8 0xFF#8 0xFF#8 6) (datagramFilled 0xFF#8 0xE6#8 0xFF#8 0xFF#8 7) = 0xFFFF#16 :=
  ⟨by decide, by decide, datagramFilled_same _ _ _ _, by decide, by decide⟩

theorem witness_FlippedDatagramBitIsSeen : udpValue (datagram 0xFF#8 0xE6#8) 8 0#32 0#32 8#32 = 0x0000#16 ∧ 0 < 8 ∧ 7 < 8 ∧
    (∀ k, k ≠ 0 → datagram 0x7F#8 0xE6#8 k = datagram 0xFF#8 0xE6#8 k) ∧
    datagram 0x7F#8 0xE6#8 0 = datagram 0xFF#8 0xE6#8 0 ^^^ (0x01#8 <<< 7) := by
  refine ⟨by decide, by decide, by decide, fun k h => ?_, by decide⟩
  unfold datagram
  rw [if_neg h, if_neg h]

/-! ### Witnesses: the commands -/

/-- The last two bytes of the address space hold 12 34; ADDR and LEN name them. -/
def atTop : State := ready 0xFFFFFFFE#32 2#32 [0x12#8, 0x34#8]

theorem witness_CsumInetCompletesWithSum : (2 = if 0 < atTop.len.toInt then atTop.len.toInt.toNat else 0) ∧
    atTop.busy = false ∧ atTop.addr.toNat + 2 ≤ 2 ^ 32 ∧ atTop.rangeSettled 2 ∧ atTop.readsAnswered 2 := by decide

theorem witness_CsumIphdrCompletesWithComplement : 15 ≤ 15 ∧ (ready 0x2001#32 0#32 []).busy = false ∧
    (ready 0x2001#32 0#32 []).addr.toNat + 4 * 15 ≤ 2 ^ 32 ∧ (ready 0x2001#32 0#32 []).rangeSettled (4 * 15) ∧
    (ready 0x2001#32 0#32 []).readsAnswered (4 * 15) := by decide

theorem witness_CsumUdpCompletesWithComplement : atTop.busy = false ∧ atTop.addr.toNat + atTop.len.toNat ≤ 2 ^ 32 ∧
    atTop.rangeSettled atTop.len.toNat ∧ atTop.readsAnswered atTop.len.toNat := by decide

/-- The first byte of the range has read side effects, and the second stands dirty in a cache that the port may miss. -/
def unsettled : State :=
  { atTop with
    dirty := [(0xFFFFFFFF, 0x56#8)]
    platform := { regBase := 0, readPortCoherent := false, regions := [{ base := 0xFFFFFFFE, size := 1, kind := .sideEffects }] } }

theorem witness_AnsweredCommandSumsTheBytesItRead : 2 = byteCount .csumInet unsettled.len ∧ unsettled.busy = false ∧
    unsettled.addr.toNat + 2 ≤ 2 ^ 32 ∧ unsettled.readsAnswered 2 ∧
    (∀ j < 2, unsettled.platform.regionAt (unsettled.addr.toNat + j) = none ∨
      unsettled.platform.regionAt (unsettled.addr.toNat + j) = some .sideEffects) ∧
    unsettled.platform.regionAt (unsettled.addr.toNat + 0) = some .sideEffects ∧
    unsettled.platform.regionAt (unsettled.addr.toNat + 1) = none ∧
    cellsFind unsettled.dirty (unsettled.addr.toNat + 1) = some 0x56#8 := by decide

theorem witness_EmptyRangeCompletesWithoutReads : (ready 0xFFFFFFFF#32 0#32 []).busy = false ∧
    (ready 0xFFFFFFFF#32 0#32 []).len.toInt ≤ 0 ∧ (ready 0xFFFFFFFF#32 0x80000000#32 []).len.toInt ≤ 0 := by decide

theorem witness_RangePastTopRaisesRange :
    2 ^ 32 < (ready 0xFFFFFFFF#32 2#32 []).addr.toNat + byteCount .csumInet (ready 0xFFFFFFFF#32 2#32 []).len ∧
    2 ^ 32 < (ready 0xFFFFFFF0#32 0#32 []).addr.toNat + byteCount (.csumIphdr 5) (ready 0xFFFFFFF0#32 0#32 []).len ∧
    2 ^ 32 < (ready 0x10#32 0xFFFFFFFF#32 []).addr.toNat + byteCount .csumUdp (ready 0x10#32 0xFFFFFFFF#32 []).len ∧
    (ready 0x10#32 0xFFFFFFFF#32 []).busy = false ∧ byteCount .csumInet (ready 0x10#32 0xFFFFFFFF#32 []).len = 0 ∧
    (status (exec .csumInet (ready 0x10#32 0xFFFFFFFF#32 []))).isSome = true := by decide

/-- The second read of the range is answered with a bus error by a draw. -/
def busByDraw : State := { atTop with draws := [ReadDraw.exhausted, busDraw] }

/-- The last byte of the range is answered with a bus error by the platform. -/
def busByPlatform : State :=
  { atTop with
    platform := { regBase := 0, readPortCoherent := true, regions := [{ base := 0xFFFFFFFF, size := 1, kind := .busError }] } }

theorem witness_BusErrorAnswerRaisesBus_draw : 2 = byteCount .csumInet busByDraw.len ∧ busByDraw.busy = false ∧
    busByDraw.addr.toNat + 2 ≤ 2 ^ 32 ∧ (∀ k < 2, (busByDraw.drawAt k).answer ≠ .unanswered) ∧
    (∀ j < 2, busByDraw.platform.regionAt (busByDraw.addr.toNat + j) ≠ some .ownWindow ∧
      busByDraw.platform.regionAt (busByDraw.addr.toNat + j) ≠ some .unanswered) ∧
    (∃ k < 2, (busByDraw.drawAt k).answer = .busError) := by decide

theorem witness_BusErrorAnswerRaisesBus_platform : 2 = byteCount .csumUdp busByPlatform.len ∧ busByPlatform.busy = false ∧
    busByPlatform.addr.toNat + 2 ≤ 2 ^ 32 ∧ (∀ k < 2, (busByPlatform.drawAt k).answer ≠ .unanswered) ∧
    (∀ j < 2, busByPlatform.platform.regionAt (busByPlatform.addr.toNat + j) ≠ some .ownWindow ∧
      busByPlatform.platform.regionAt (busByPlatform.addr.toNat + j) ≠ some .unanswered) ∧
    (∃ j < 2, busByPlatform.platform.regionAt (busByPlatform.addr.toNat + j) = some .busError) := by decide

/-- The last byte of the range answers no read, in one of the two ways. -/
def silent (k : RegionKind) : State :=
  { atTop with
    platform := { regBase := 0, readPortCoherent := true, regions := [{ base := 0xFFFFFFFF, size := 1, kind := k }] } }

theorem witness_UnansweredReadHangsCommand : ∀ kind ∈ [RegionKind.ownWindow, RegionKind.unanswered],
    2 = byteCount .csumInet (silent kind).len ∧ (silent kind).busy = false ∧ (silent kind).addr.toNat + 2 ≤ 2 ^ 32 ∧
    (∀ k < 2, ((silent kind).drawAt k).answer ≠ .busError) ∧
    (∀ j < 2, (silent kind).platform.regionAt ((silent kind).addr.toNat + j) ≠ some .busError) ∧
    (∃ j < 2, (silent kind).platform.regionAt ((silent kind).addr.toNat + j) = some .ownWindow ∨
      (silent kind).platform.regionAt ((silent kind).addr.toNat + j) = some .unanswered) := by decide

/-- The memory leaves the second read of the range unanswered. -/
def silentByDraw : State :=
  { atTop with draws := [ReadDraw.exhausted, { pick := 0, answer := .unanswered, seesDirty := false, stop := false }] }

theorem witness_UnansweredReadHangsCommand_draw : 2 = byteCount .csumInet silentByDraw.len ∧ silentByDraw.busy = false ∧
    silentByDraw.addr.toNat + 2 ≤ 2 ^ 32 ∧ (∀ k < 2, (silentByDraw.drawAt k).answer ≠ .busError) ∧
    (∀ j < 2, silentByDraw.platform.regionAt (silentByDraw.addr.toNat + j) ≠ some .busError) ∧
    (∃ k < 2, (silentByDraw.drawAt k).answer = .unanswered) := by decide

theorem witness_CommandIsHeldWhileWindowIsBusy : hung.busy = true ∧ { State.reset with resetAsserted := true }.busy = true := by
  decide

theorem witness_CommandFrame : (∃ t, exec .csumInet atTop = .next t) ∧ atTop.busy = false ∧
    (∃ t, exec .csumUdp hung = .next t) ∧ hung.busy = true := ⟨⟨_, rfl⟩, by decide, ⟨_, rfl⟩, by decide⟩

/-- The bytes of `atTop`, at an odd address. -/
def elsewhere : State := ready 0x1001#32 2#32 [0x12#8, 0x34#8]

theorem witness_OutcomeDependsOnRangeBytesOnly : byteCount .csumInet atTop.len = 2 ∧ atTop.busy = false ∧ elsewhere.busy = false ∧
    atTop.len = elsewhere.len ∧ atTop.ipsrc = elsewhere.ipsrc ∧ atTop.ipdst = elsewhere.ipdst ∧
    atTop.addr.toNat + 2 ≤ 2 ^ 32 ∧ elsewhere.addr.toNat + 2 ≤ 2 ^ 32 ∧ atTop.rangeSettled 2 ∧ elsewhere.rangeSettled 2 ∧
    atTop.readsAnswered 2 ∧ elsewhere.readsAnswered 2 ∧ (∀ j < 2, atTop.rangeByte j = elsewhere.rangeByte j) ∧
    (outcome (exec .csumInet atTop)).isSome = true ∧ (outcome (exec .csumInet elsewhere)).isSome = true := by decide

/-! ### Witnesses: steps -/

theorem witness_StepRunsDecodedCommand : (turns [access 0 (.write 0x52#32)] atTop).script = [access 0 (.write 0x52#32)] ∧
    atTop.platform.regBase = 0 ∧ (turns [access 0 (.write 0x52#32)] atTop).freeFor 1 = true ∧
    decode 0x52#32 = .command (.csumIphdr 5) := by decide

theorem witness_PlacedWordIsRunNext : decodeTableWord 32 0x1 = some .csumInet ∧ decodeTableWord 32 0xF2 = some (.csumIphdr 15) ∧
    decodeTableWord 32 0x3 = some .csumUdp := by decide

theorem witness_IllegalWordRaisesIllegalCmd : (turns [access 0 (.write 0#32)] atTop).freeFor 1 = true ∧
    decode 0x00000000#32 = .illegal .reservedOp ∧ decode 0x00000011#32 = .illegal .strayHwords ∧
    decode 0x80000001#32 = .illegal .reservedBits := by decide

theorem witness_CommandInStepsEndsAsExec : atTop.busy = false ∧ atTop.held = [] ∧ decode 0x1#32 = .command .csumInet ∧
    byteCount .csumInet atTop.len + 2 ≤ 4 ∧ decode 0x00000011#32 = .illegal .strayHwords ∧
    (turns [.access { host := 1, addr := atTop.platform.regBase, width := .word, op := .write 0x11#32 } false] atTop).held = [] := by
  decide

/-- A CSUM_INET over two bytes, accepted, with nothing read yet. -/
def accepted : State := acceptCommand 0x1#32 (some 2) atTop

theorem witness_AnsweredCommandEndsInBoundedSteps : accepted.phase = .exec (latchCommand 0x1#32 (some 2) atTop) ∧
    accepted.script = [] ∧ accepted.resetAsserted = false ∧ (latchCommand 0x1#32 (some 2) atTop).stalled = none ∧
    (latchCommand 0x1#32 (some 2) atTop).pending = [0, 1] ∧ (∀ k < 2, (accepted.drawAt k).answer ≠ .unanswered) ∧
    (∀ i ∈ [0, 1], accepted.platform.regionAt (atTop.addr + BitVec.ofNat 32 i).toNat ≠ some .ownWindow ∧
      accepted.platform.regionAt (atTop.addr + BitVec.ofNat 32 i).toNat ≠ some .unanswered) := by decide

theorem witness_HungCommandWaitsForReset : hung.phase = .exec hungExec ∧ hungExec.stalled.isSome = true ∧
    hung.resetAsserted = false ∧ (outcome (step hung)).isSome = true ∧
    (outcome (step (turns [.resetAssert] hung))).isSome = true := by decide

/-! ### Witnesses: host access -/

theorem witness_HostReadsReturnSlotValues :
    ∀ r ∈ [Slot.cmd, .addr, .len, .ipsrc, .ipdst, .result, .status, .reserved],
      (turns [access (State.reset.platform.regBase + r.offset) .read] failed).freeFor 1 = true := by decide

theorem witness_HostWritesSetOperands : ∀ off ∈ [0x04, 0x08, 0x0C, 0x10],
    (turns [access (failed.platform.regBase + off) (.write 0xFFFFFFFF#32)] failed).freeFor 1 = true := by decide

theorem witness_HostWritesOfOutcomeRegisters : (∀ off ∈ [0x14, 0x18, 0x1C],
    (turns [access (failed.platform.regBase + off) (.write 0xFFFFFFFF#32)] failed).freeFor 1 = true) ∧
    (0xFFFFFFFF#32).toNat / 4 % 2 = 1 ∧ (0xFFFFFFFB#32).toNat / 4 % 2 = 0 := by decide

/-- The machine with the window at host address 0x100. -/
def based : State := { State.reset with platform := { regBase := 0x100, readPortCoherent := false, regions := [] } }

theorem witness_MisshapenAccessIsRefused :
    (based.platform.regBase < 0x11F + AccessWidth.byte.bytes ∧ 0x11F < based.platform.regBase + 32 ∧ AccessWidth.byte ≠ .word) ∧
    (based.platform.regBase < 0xFD + AccessWidth.word.bytes ∧ 0xFD < based.platform.regBase + 32 ∧ 0xFD < based.platform.regBase) ∧
    (based.platform.regBase < 0x11D + AccessWidth.word.bytes ∧ 0x11D < based.platform.regBase + 32 ∧
      (0x11D - based.platform.regBase) % 4 ≠ 0) ∧
    (based.platform.regBase < 0x118 + (AccessWidth.wide 3).bytes ∧ 0x118 < based.platform.regBase + 32 ∧
      AccessWidth.wide 3 ≠ .word ∧ (AccessWidth.wide 3).bytes = 8) := by decide

theorem witness_AccessesAreHeldWhileBusy : (turns [access 0x1C .read] hung).busy = true ∧
    (turns [access 0x1C .read] { State.reset with resetAsserted := true }).busy = true ∧ Slot.reserved.offset = 0x1C ∧
    (outcome (step (turns [access 0x1C .read] hung))).isSome = true := by decide

/-- Two accesses of host 1 and one of host 2 are held. -/
def queue : List Held :=
  [{ access := { host := 1, addr := 4, width := .word, op := .write 7#32 }, alone := true },
   { access := { host := 2, addr := 8, width := .word, op := .read }, alone := true },
   { access := { host := 1, addr := 0, width := .word, op := .write 1#32 }, alone := false }]

theorem witness_GrantPerformsOldestOfItsHost : (turns [.grant 2] { State.reset with held := queue }).busy = false ∧
    queue[2 % queue.length]?.isSome = true := by decide

theorem witness_PseudoInstructionsReturnChecksums : (turns ((Pseudo.csumInet 0xFFFFFFFE#32 2#32).turns 0 1) atTop).freeFor 1 = true ∧
    atTop.platform.regBase = 0 ∧ inetByteCount 2#32 = 2 ∧ (0xFFFFFFFE#32).toNat + 2 ≤ 2 ^ 32 ∧
    { atTop with addr := 0xFFFFFFFE#32 }.rangeSettled 2 ∧ atTop.readsAnswered 2 ∧
    (5 ≤ 15 ∧ (0x2000#32).toNat + 4 * 5 ≤ 2 ^ 32 ∧ { atTop with addr := 0x2000#32 }.rangeSettled (4 * 5) ∧
      atTop.readsAnswered (4 * 5)) ∧
    ((0xFFFFFFFE#32).toNat + (2#32).toNat ≤ 2 ^ 32 ∧ { atTop with addr := 0xFFFFFFFE#32 }.rangeSettled (2#32).toNat ∧
      atTop.readsAnswered (2#32).toNat) := by decide

/-! ### Witnesses: the whole machine -/

theorem witness_EngineNeverWritesMemory : (outcome (step accepted)).isSome = true ∧ accepted.script = [] := by decide

theorem witness_OperandsChangeOnlyByHostWriteOrReset :
    (outcome (step (turns [access 4 (.write 7#32)] State.reset))).isSome = true ∧
    (outcome (step (turns [.grant 0] { State.reset with held := queue }))).isSome = true ∧
    (outcome (step (turns [.resetAssert] State.reset))).isSome = true := by decide

/-- STICKY after a step. -/
def stickyAfter : Host.Outcome State Fault Refusal → Option Bool
  | .next t => some t.sticky
  | _ => none

theorem witness_StickyIsClearedOnlyByHostOrReset : failed.sticky = true ∧
    stickyAfter (step (turns [access 0x18 (.write 4#32)] failed)) = some false ∧
    stickyAfter (step (turns [.resetAssert] failed)) = some false := by decide

theorem witness_ResetInputClearsEngine : (turns [.resetAssert] hung).script = [.resetAssert] ∧
    ([.writeDone 1] : List Response) = (match hung.phase with | .idle => [] | .exec e => [.writeDone e.issuer]) ∧
    { turns [.resetRelease] State.reset with resetAsserted := true }.resetAsserted = true := by decide

/-- After a failed command: the invariant holds, and a step goes on. -/
theorem witness_EveryStepKeepsInvariant : failed.Inv ∧ ∃ t, step (turns [access 0 (.write 1#32)] failed) = .next t :=
  ⟨{ status := by unfold State.statusLegal; decide
     memory := by decide
     caches := by decide
     command := fun _ h => by cases h
     inReset := fun h => by cases h }, ⟨_, rfl⟩⟩

theorem witness_ContractKeepingRunNeverStops :
    (turns [access 0 (.write 0xFFFFFFFF#32), .store 1 0xFFFFFFFF#32 [0x12#8], .clean 1 0#32 4, .resetAssert]
      { State.reset with held := queue }).inContract := by unfold State.inContract; decide

theorem witness_MemoryWriteThenRead : atTop.mem.wf ∧ 0xFFFFFFFF < dataSpace ∧ (memoryAt 0 [0x00#8, 0x01#8]).wf := by decide

theorem witness_PerformedBytesAreSeen : cellsSorted unsettled.dirty ∧
    (0xFFFFFFFE#32).toNat + ([0x01#8, 0x02#8] : List Byte).length ≤ 2 ^ 32 ∧ (0xFFFFFFFE#32).toNat + 2 ≤ 2 ^ 32 ∧
    unsettled.platform.regionAt ((0xFFFFFFFE#32).toNat + 1) = none ∧ ReadDraw.exhausted.answer = .data := by decide

theorem witness_PortReadOfPlainMemory : unsettled.platform.regionAt (0xFFFFFFFF#32).toNat = none ∧
    ReadDraw.exhausted.answer = .data ∧ cellsFind unsettled.dirty (0xFFFFFFFF#32).toNat = some 0x56#8 ∧
    unsettled.platform.readPortCoherent = false ∧ based.platform.regionAt 0 = none ∧ cellsFind based.dirty 0 = none ∧
    { unsettled.platform with readPortCoherent := true }.readPortCoherent = true := by decide

theorem witness_WriteDuringCommandReachesLaterReadsOnly : accepted.phase = .exec (latchCommand 0x1#32 (some 2) atTop) ∧
    (turns [.masterWrite 0xFFFFFFFF#32 0x99#8] accepted).script = [.masterWrite 0xFFFFFFFF#32 0x99#8] ∧
    (outcome (step (turns [.masterWrite 0xFFFFFFFF#32 0x99#8] accepted))).isSome = true ∧
    (outcome (step (turns [.store 1 0xFFFFFFFE#32 [0x98#8, 0x99#8]] accepted))).isSome = true ∧
    (outcome (step (turns [.storeCached 1 0xFFFFFFFE#32 [0x98#8, 0x99#8]] accepted))).isSome = true ∧
    accepted.platform.regionAt (0xFFFFFFFF#32).toNat = none ∧ accepted.platform.regionAt ((0xFFFFFFFE#32).toNat + 1) = none ∧
    ReadDraw.exhausted.answer = .data := by decide

/-! ### Witnesses: beside the statements above -/

theorem witness_AccessIsHeldBehindItsHostsOwn : (turns [access 0x1C .read] { State.reset with held := queue }).busy = false ∧
    Slot.reserved.offset = 0x1C ∧ (∃ x ∈ queue, x.access.host = 1) := by decide

theorem witness_CachedStoreStaysDirty : (0xFFFFFFFE#32).toNat + ([0x01#8, 0x02#8] : List Byte).length ≤ 2 ^ 32 ∧
    (turns [.storeCached 1 0xFFFFFFFE#32 [0x01#8, 0x02#8]] unsettled).script =
      [.storeCached 1 0xFFFFFFFE#32 [0x01#8, 0x02#8]] := by decide

theorem witness_HostLoadIsInNetworkOrder : (0xFFFFFFFE#32).toNat + 2 ≤ 2 ^ 32 ∧
    cellsFind unsettled.dirty (0xFFFFFFFE#32).toNat = none ∧
    cellsFind unsettled.dirty ((0xFFFFFFFE#32).toNat + 1) = some 0x56#8 := by decide

theorem witness_HostAccessPastTopFaults : 2 ^ 32 < (0xFFFFFFFF#32).toNat + ([0x01#8, 0x02#8] : List Byte).length ∧
    2 ^ 32 < (0xFFFFFFFF#32).toNat + 2 := by decide

end Sys2Proof.Tests
end

section
/-! PROOF. A host's own read of two bytes of memory (00_scope.md rule R10; 30_encoding.md rule R61, `mrd16`). -/

namespace Sys2Proof.Machine

theorem State.hostByte_of_dirty {s : State} {a : Nat} {b : Byte} (h : cellsFind s.dirty a = some b) : s.hostByte a = b := by
  simp [State.hostByte, h]

theorem State.hostByte_of_not_dirty {s : State} {a : Nat} (h : cellsFind s.dirty a = none) : s.hostByte a = s.mem.read a := by
  simp [State.hostByte, h]

theorem loadHalf_inside {a : Word} (host : Nat) (s : State) (h : a.toNat + 2 ≤ 2 ^ 32) :
    loadHalf host a s =
      .next (s.respond (.loaded host (networkHalf (s.hostByte a.toNat) (s.hostByte (a.toNat + 1))))) :=
  if_pos ((insideDataSpace_iff a 2).mpr h)

theorem step_of_script {s : State} {t : Turn} {rest : List Turn} (h : s.script = t :: rest) :
    step s = takeTurn t { s with script := rest } := by
  simp only [step, h]

/-- Settles O55: the two bytes are the host's view of the two addresses, and the answer is the only change. -/
theorem hostLoadIsInNetworkOrder : Obligations.HostLoadIsInNetworkOrder := by
  unfold Obligations.HostLoadIsInNetworkOrder
  intro s host a rest hscript hinside
  have hstep : step s = .next (({ s with script := rest } : State).respond
      (.loaded host (networkHalf (s.hostByte a.toNat) (s.hostByte (a.toNat + 1))))) :=
    (step_of_script hscript).trans (loadHalf_inside host { s with script := rest } hinside)
  exact ⟨_, s.hostByte a.toNat, s.hostByte (a.toNat + 1), hstep, networkHalf_toNat _ _,
    fun _ => State.hostByte_of_dirty, State.hostByte_of_not_dirty,
    fun _ => State.hostByte_of_dirty, State.hostByte_of_not_dirty⟩

end Sys2Proof.Machine
end

section
/-! PROOF. What is kept: the invariant by every step (10_state.md rules R23, R30 and R32; 20_memory.md rule R37), and the host
registers by every command (10_state.md rules R21 and R27). -/

namespace Sys2Proof.Machine

/-! ### The command that a word issues -/

theorem wellFormed_of_decode {w : Word} {i : Instr} (h : decode w = .command i) : i.WellFormed = true := by
  cases i with
  | csumInet | csumUdp => rfl
  | csumIphdr hwords =>
    have hlt : hwords < 16 := by
      rw [decode_spec] at h
      split_ifs at h <;> cases h
      omega
    simp only [Instr.WellFormed, decide_eq_true_eq]
    omega

/-- Issuing a word is to accept one word with its own byte count, and perhaps to run its command to the end. -/
theorem issueCommand_cases {w : Word} {alone : Bool} {s t : State} (h : issueCommand w alone s = .next t) :
    ∃ w', t = runFrame w' (wordByteCount w' s.len) s ∨ t = acceptCommand w' (wordByteCount w' s.len) s := by
  unfold issueCommand at h
  split at h
  · split at h
    · rename_i i hd
      have hcount : wordByteCount (encode i) s.len = some (byteCount i s.len) := by
        rw [wordByteCount, decode_encode (wellFormed_of_decode hd)]
      rw [exec_eq_runFrame, ← hcount] at h
      injection h with h
      exact ⟨encode i, .inl h.symm⟩
    · rename_i why hd
      have hcount : wordByteCount w s.len = none := by rw [wordByteCount, hd]
      rw [← hcount] at h
      injection h with h
      exact ⟨w, .inl h.symm⟩
  · injection h with h
    exact ⟨w, .inr h.symm⟩

theorem issueCommand_frame {w : Word} {alone : Bool} {s t : State} (h : issueCommand w alone s = .next t)
    (hb : s.busy = false) : EngineFrame s t := by
  obtain ⟨w', rfl | rfl⟩ := issueCommand_cases h
  · exact runFrame_frame _ _ s hb
  · exact acceptCommand_frame _ _ s

theorem runFrame_busy {s : State} (w : Word) (n : Option Nat) (hb : s.busy = true) :
    runFrame w n s = s.holdAccess { access := s.cmdAccess w, alone := true } :=
  if_pos hb

theorem runFrame_free {s : State} (w : Word) (n : Option Nat) (hb : s.busy = false) :
    runFrame w n s = finishCommand (acceptCommand w n s) :=
  if_neg (by simp [hb])

theorem runFrame_answers {s : State} (w : Word) (n : Option Nat) (hb : s.busy = false) :
    Answers s.master s (runFrame w n s) := by
  rw [runFrame_free w n hb]
  exact engineTurns_answers _ (acceptCommand w n s) (latchCommand w n s) rfl

/-- Settles O26: at a free window the frame of the engine and its one answer; at a busy one a held access. -/
theorem commandFrame : Obligations.CommandFrame := by
  unfold Obligations.CommandFrame
  intro i s t h
  rw [exec_eq_runFrame] at h
  injection h with h
  subst h
  by_cases hb : s.busy = true
  · rw [runFrame_busy _ _ hb]
    simp [hb]
  · have hfree : s.busy = false := by simpa using hb
    obtain ⟨⟨haddr, hlen, hsrc, hdst⟩, ⟨hmem, hdirty, hplat, hscript, hmaster, hreset, hheld⟩, hsticky⟩ :=
      runFrame_frame (encode i) (some (byteCount i s.len)) s hfree
    exact ⟨haddr, hlen, hsrc, hdst, fun a => by rw [hmem], hmem, hdirty, hplat, hscript, hmaster, hreset, hsticky,
      (runFrame_answers _ _ hfree).imp And.left And.left, fun _ => hheld, fun h => absurd h hb⟩

/-! ### The registers that a host writes -/

/-- The operand registers are kept, and STICKY is not cleared. -/
structure HostRegistersKept (s t : State) : Prop where
  ops : t.addr = s.addr ∧ t.len = s.len ∧ t.ipsrc = s.ipsrc ∧ t.ipdst = s.ipdst
  sticky : s.sticky = true → t.sticky = true

/-- The access is presented by the next turn, or held. -/
def State.awaits (s : State) (a : Access) : Prop :=
  (∃ alone rest, s.script = .access a alone :: rest) ∨ (∃ x ∈ s.held, x.access = a)

/-- A step keeps the host registers but for one write to a slot, or is a turn of the reset input. -/
theorem step_hostRegisters {s t : State} (h : step s = .next t) :
    HostRegistersKept s t ∨
    (∃ rest, s.script = .resetAssert :: rest ∨ s.script = .resetRelease :: rest) ∨
    (∃ a v r, a.op = .write v ∧ a.target s.platform.regBase = .slot r ∧ s.awaits a ∧
      HostRegistersKept (s.writeSlot v r) t) := by
  have same : ∀ {u : State}, u.addr = s.addr ∧ u.len = s.len ∧ u.ipsrc = s.ipsrc ∧ u.ipdst = s.ipdst →
      u.sticky = s.sticky → HostRegistersKept s u := fun hops hst => ⟨hops, fun h => hst.trans h⟩
  obtain ⟨rest, -, ⟨rfl, -⟩ | ⟨-, rfl⟩ | ⟨a, alone, -, r, -, rfl⟩ | ⟨hb, a, alone, held, hfrom, hp⟩ | ⟨m, d, rfl, -⟩ |
    ⟨host, a, v, -, rfl⟩ | ⟨hs, -⟩ | ⟨hs, -, -⟩⟩ := step_cases h
  · exact .inl (same ⟨rfl, rfl, rfl, rfl⟩ rfl)
  · have hframe := engineTurn_frame { s with script := rest }
    exact .inl ⟨hframe.ops, hframe.sticky⟩
  · exact .inl (same ⟨rfl, rfl, rfl, rfl⟩ rfl)
  · have hawaits : s.awaits a :=
      hfrom.imp (fun h => ⟨alone, rest, h.1⟩) (fun ⟨⟨y, hy, ha, _⟩, _⟩ => ⟨y, hy, ha⟩)
    obtain rfl | ⟨r, -, -, rfl⟩ | ⟨v, r, hop, ht, -, rfl⟩ | ⟨w, -, -, hi⟩ := performAccess_cases hp
    · exact .inl (same ⟨rfl, rfl, rfl, rfl⟩ rfl)
    · exact .inl (same ⟨rfl, rfl, rfl, rfl⟩ rfl)
    · exact .inr (.inr ⟨a, v, r, hop, ht, hawaits, by cases r <;> exact ⟨⟨rfl, rfl, rfl, rfl⟩, id⟩⟩)
    · have hframe := issueCommand_frame hi hb
      exact .inl ⟨hframe.ops, hframe.sticky⟩
  · exact .inl (same ⟨rfl, rfl, rfl, rfl⟩ rfl)
  · exact .inl (same ⟨rfl, rfl, rfl, rfl⟩ rfl)
  · exact .inr (.inl ⟨rest, .inl hs⟩)
  · exact .inr (.inl ⟨rest, .inr hs⟩)

/-- Settles O42: of the writes to a slot, the one to an operand slot sets that operand and no other. -/
theorem operandsChangeOnlyByHostWriteOrReset : Obligations.OperandsChangeOnlyByHostWriteOrReset := by
  unfold Obligations.OperandsChangeOnlyByHostWriteOrReset
  intro s t h
  obtain hkept | hreset | ⟨a, v, r, hop, ht, hawaits, ⟨hops, -⟩⟩ := step_hostRegisters h
  · exact .inl hkept.ops
  · exact .inr (.inl hreset)
  · cases r with
    | cmd | result | status | reserved => exact .inl hops
    | addr => exact .inr (.inr ⟨a, v, .addr, hop, ht, hawaits, .inl ⟨rfl, hops⟩⟩)
    | len => exact .inr (.inr ⟨a, v, .len, hop, ht, hawaits, .inr (.inl ⟨rfl, hops⟩)⟩)
    | ipsrc => exact .inr (.inr ⟨a, v, .ipsrc, hop, ht, hawaits, .inr (.inr (.inl ⟨rfl, hops⟩))⟩)
    | ipdst => exact .inr (.inr ⟨a, v, .ipdst, hop, ht, hawaits, .inr (.inr (.inr ⟨rfl, hops⟩))⟩)

theorem writeSlot_sticky {v : Word} {s : State} {r : Slot} (h : ¬(r = .status ∧ v.getLsbD 2 = true)) :
    (s.writeSlot v r).sticky = s.sticky := by
  cases r with
  | status =>
    have hbit : v.getLsbD 2 = false := by simpa using h
    exact (State.writeStatus_sticky v s).trans (by rw [hbit, Bool.not_false, Bool.and_true])
  | cmd | addr | len | ipsrc | ipdst | result | reserved => rfl

/-- Settles O43: the only write to a slot after which STICKY can be clear is that of STATUS with bit 2 set. -/
theorem stickyIsClearedOnlyByHostOrReset : Obligations.StickyIsClearedOnlyByHostOrReset := by
  unfold Obligations.StickyIsClearedOnlyByHostOrReset
  intro s t h hset hclear
  obtain hkept | hreset | ⟨a, v, r, hop, ht, hawaits, hkept⟩ := step_hostRegisters h
  · simp [hkept.sticky hset] at hclear
  · exact .inl hreset
  · by_cases hclears : r = .status ∧ v.getLsbD 2 = true
    · obtain ⟨rfl, hbit⟩ := hclears
      exact .inr ⟨a, v, hop, hbit, ht, hawaits⟩
    · have hstill := hkept.sticky ((writeSlot_sticky hclears).trans hset)
      simp [hstill] at hclear

/-! ### A command in execution stays sound -/

theorem Exec.Sound.congr {s t : State} {e : Exec} (h : e.Sound s)
    (hops : t.addr = s.addr ∧ t.len = s.len ∧ t.ipsrc = s.ipsrc ∧ t.ipdst = s.ipdst) : e.Sound t where
  latched := by obtain ⟨h1, h2, h3, h4⟩ := hops; rw [h1, h2, h3, h4]; exact h.latched
  error := h.error
  noRead := h.noRead
  once := h.once
  inside := h.inside
  whole := h.whole
  accumulated := h.accumulated

theorem Exec.mem_offsets_of_mem_pending {e : Exec} {i : Nat} (h : i ∈ e.pending) : i ∈ e.offsets :=
  List.mem_append_left _ h

/-- A command that still has a byte to read had no error at acceptance. -/
theorem Exec.Sound.acceptError_none {s : State} {e : Exec} (h : e.Sound s) (hne : e.pending ≠ []) :
    acceptError e.opAddr (wordByteCount e.cmd e.opLen) = none := by
  by_contra hc
  obtain ⟨i, hi⟩ := List.exists_mem_of_ne_nil _ hne
  have hmem := mem_offsets_of_mem_pending hi
  rw [h.noRead hc] at hmem
  cases hmem

/-- An offset moved from `pending` to another list of the command. -/
theorem getD_eraseIdx_append_perm {l xs : List Nat} {k : Nat} (hk : k < l.length) :
    (l.eraseIdx k ++ l.getD k 0 :: xs).Perm (l ++ xs) := by
  rw [List.getD_eq_getElem l 0 hk]
  exact List.perm_middle.trans ((List.getElem_cons_eraseIdx_perm hk).append_right xs)

section
variable {s : State} {e : Exec} {k : Nat} (hs : e.Sound s) (hst : e.stalled = none) (hk : k < e.pending.length)
include hs hst hk

theorem Exec.Sound.record_read (v : Byte) : ((e.takePlace k).record (e.pending.getD k 0) v).Sound s := by
  have hperm : ((e.takePlace k).record (e.pending.getD k 0) v).offsets.Perm e.offsets := by
    simpa [Exec.offsets, Exec.record, Exec.takePlace, hst] using getD_eraseIdx_append_perm hk
  have hlt := offsetWeight_lt (e.pending.getD k 0) v
  exact {
    latched := hs.latched
    error := hs.error
    noRead := fun h => absurd (hs.acceptError_none (List.ne_nil_of_length_pos (by omega))) h
    once := hperm.nodup_iff.mpr hs.once
    inside := fun i hi => hs.inside i (hperm.mem_iff.mp hi)
    whole := fun he i hi => hperm.mem_iff.mpr (hs.whole he i hi)
    accumulated := by
      simp only [Exec.record, List.map_cons, List.sum_cons]
      rw [fold16_eac, BitVec.toNat_ofNat, Nat.mod_eq_of_lt (by omega), Nat.add_comm]
      exact fold16_add_congr rfl hs.accumulated }

theorem Exec.Sound.stall_read : Exec.Sound s { e.takePlace k with stalled := some (e.pending.getD k 0) } := by
  have hperm : ({ e.takePlace k with stalled := some (e.pending.getD k 0) } : Exec).offsets.Perm e.offsets := by
    simpa [Exec.offsets, Exec.takePlace, hst] using getD_eraseIdx_append_perm hk
  exact {
    latched := hs.latched
    error := hs.error
    noRead := fun h => absurd (hs.acceptError_none (List.ne_nil_of_length_pos (by omega))) h
    once := hperm.nodup_iff.mpr hs.once
    inside := fun i hi => hs.inside i (hperm.mem_iff.mp hi)
    whole := fun he i hi => hperm.mem_iff.mpr (hs.whole he i hi)
    accumulated := hs.accumulated }

omit hst in
theorem Exec.Sound.busError_read : Exec.Sound s { e.takePlace k with error := some .bus } := by
  have hsub : ({ e.takePlace k with error := some .bus } : Exec).offsets.Sublist e.offsets :=
    (List.eraseIdx_sublist e.pending k).append_right _
  have hnone := hs.acceptError_none (List.ne_nil_of_length_pos (by omega))
  exact {
    latched := hs.latched
    error := .inr ⟨hnone, rfl⟩
    noRead := fun h => absurd hnone h
    once := hs.once.sublist hsub
    inside := fun i hi => hs.inside i (hsub.subset hi)
    whole := fun he => by cases he
    accumulated := hs.accumulated }

end

theorem readOne_keeps_sound {s : State} {e : Exec} (hs : e.Sound s) (hst : e.stalled = none) (hne : e.pending ≠ []) :
    ∃ e', (readOne e s).phase = .exec e' ∧ e'.Sound (readOne e s) := by
  obtain ⟨k, i, hk, rfl, ⟨v, -, hr⟩ | ⟨-, hr⟩ | ⟨-, hr⟩⟩ := readOne_cases e s hne
  · rw [hr]; exact ⟨_, rfl, (hs.record_read hst hk v).congr ⟨rfl, rfl, rfl, rfl⟩⟩
  · rw [hr]; exact ⟨_, rfl, (hs.busError_read hk).congr ⟨rfl, rfl, rfl, rfl⟩⟩
  · rw [hr]; exact ⟨_, rfl, (hs.stall_read hst hk).congr ⟨rfl, rfl, rfl, rfl⟩⟩

theorem latchCommand_offsets (w : Word) (n : Option Nat) (s : State) :
    (latchCommand w n s).offsets = if (acceptError s.addr n).isNone then List.range (n.getD 0) else [] := by
  simp [Exec.offsets, latchCommand]

theorem latchCommand_sound (w : Word) (s : State) : (latchCommand w (wordByteCount w s.len) s).Sound s := by
  set n := wordByteCount w s.len with hn
  have hoff := latchCommand_offsets w n s
  exact {
    latched := ⟨rfl, rfl, rfl, rfl⟩
    error := .inl rfl
    noRead := fun (h : acceptError s.addr n ≠ none) => by rw [hoff]; simp [h]
    once := by rw [hoff]; split; exacts [List.nodup_range, List.nodup_nil]
    inside := fun i hi => by
      rw [hoff] at hi
      split at hi
      · exact List.mem_range.mp hi
      · cases hi
    whole := fun (he : acceptError s.addr n = none) i hi => by
      rw [hoff, he]
      exact List.mem_range.mpr hi
    accumulated := rfl }

/-! ### The invariant, for each kind of update -/

theorem State.Inv.of_engineCleared {t : State} (hc : t.engineCleared) (hm : t.mem.wf) (hd : cellsSorted t.dirty) : t.Inv := by
  have ⟨_, _, _, _, _, hdone, herr, _, hcode, hphase⟩ := hc
  exact {
    status := by simp [State.statusLegal, hdone, herr, hcode]
    memory := hm
    caches := hd
    command := fun e he => by rw [hphase] at he; cases he
    inReset := fun _ => hc }

/-- An update of the memory, the caches, the hosts and the bus alone. -/
theorem State.Inv.of_sameEngine {s t : State} (h : s.Inv)
    (hops : t.addr = s.addr ∧ t.len = s.len ∧ t.ipsrc = s.ipsrc ∧ t.ipdst = s.ipdst)
    (hout : t.result = s.result ∧ t.done = s.done ∧ t.err = s.err ∧ t.sticky = s.sticky ∧ t.errcode = s.errcode)
    (hrun : t.phase = s.phase ∧ t.resetAsserted = s.resetAsserted) (hm : t.mem.wf) (hd : cellsSorted t.dirty) : t.Inv := by
  obtain ⟨h6, h7, h8, h9, h10⟩ := hout
  exact {
    status := by simpa only [State.statusLegal, h7, h8, h10] using h.status
    memory := hm
    caches := hd
    command := fun e he => (h.command e (hrun.1 ▸ he)).congr hops
    inReset := fun hr => by
      obtain ⟨h1, h2, h3, h4⟩ := hops
      simpa only [State.engineCleared, h1, h2, h3, h4, h6, h7, h8, h9, h10, hrun.1] using h.inReset (hrun.2 ▸ hr) }

theorem State.Inv.respond {s : State} (h : s.Inv) (r : Response) : (s.respond r).Inv :=
  h.of_sameEngine ⟨rfl, rfl, rfl, rfl⟩ ⟨rfl, rfl, rfl, rfl, rfl⟩ ⟨rfl, rfl⟩ h.memory h.caches

theorem not_resetAsserted_of_not_busy {s : State} (hb : s.busy = false) : s.resetAsserted = false := by
  simpa [State.busy, idle_of_not_busy hb] using hb

theorem writeSlot_statusLegal {s : State} (h : s.statusLegal) (v : Word) (r : Slot) : (s.writeSlot v r).statusLegal := by
  cases r <;> exact h

theorem writeSlot_env (s : State) (v : Word) (r : Slot) :
    (s.writeSlot v r).mem = s.mem ∧ (s.writeSlot v r).dirty = s.dirty ∧ (s.writeSlot v r).phase = s.phase ∧
      (s.writeSlot v r).resetAsserted = s.resetAsserted := by
  cases r <;> exact ⟨rfl, rfl, rfl, rfl⟩

theorem State.Inv.writeSlot {s : State} (h : s.Inv) (hb : s.busy = false) (v : Word) (r : Slot) :
    (s.writeSlot v r).Inv := by
  obtain ⟨hm, hd, hp, hr⟩ := writeSlot_env s v r
  exact {
    status := writeSlot_statusLegal h.status v r
    memory := hm ▸ h.memory
    caches := hd ▸ h.caches
    command := fun e he => by rw [hp, idle_of_not_busy hb] at he; cases he
    inReset := fun ht => by rw [hr, not_resetAsserted_of_not_busy hb] at ht; cases ht }

/-! ### The invariant, for the engine's own steps -/

theorem raiseError_statusLegal (c : ErrCode) (e : Exec) (s : State) : (raiseError c e s).statusLegal := by
  cases c <;> simp [raiseError, State.statusLegal, ErrCode.code]

theorem raiseError_phase (c : ErrCode) (e : Exec) (s : State) : (raiseError c e s).phase = .idle := by
  cases c <;> rfl

theorem concludeCommand_ends (e : Exec) (s : State) :
    (concludeCommand e s).statusLegal ∧ (concludeCommand e s).phase = .idle := by
  unfold concludeCommand
  split
  · exact ⟨by simp [completeOk, State.statusLegal], rfl⟩
  · exact ⟨raiseError_statusLegal _ e s, raiseError_phase _ e s⟩

theorem readOne_statusLegal {s : State} {e : Exec} (h : s.statusLegal) (hne : e.pending ≠ []) :
    (readOne e s).statusLegal := by
  obtain ⟨k, i, -, -, ⟨v, -, hr⟩ | ⟨-, hr⟩ | ⟨-, hr⟩⟩ := readOne_cases e s hne <;> rw [hr] <;> exact h

/-- What a step of the engine leaves: a legal STATUS, and a sound command or none. -/
theorem engineTurn_keeps_command {s : State} (h : s.Inv) :
    (engineTurn s).statusLegal ∧ ∀ e, (engineTurn s).phase = .exec e → e.Sound (engineTurn s) := by
  have ends : ∀ {u : State}, u.statusLegal ∧ u.phase = .idle → u.statusLegal ∧ ∀ e, u.phase = .exec e → e.Sound u :=
    fun hu => ⟨hu.1, fun e he => by rw [hu.2] at he; cases he⟩
  cases hp : s.phase with
  | idle => rw [engineTurn_idle hp]; exact ends ⟨h.status, hp⟩
  | exec e =>
    have hsound := h.command e hp
    rcases engineTurn_cases s e hp with ⟨ht, -⟩ | ⟨hst, hne, -, ht⟩ | ⟨-, -, -, ht⟩ | ⟨-, c, -, ht | ⟨-, ht⟩⟩ <;> rw [ht]
    · exact ⟨h.status, h.command⟩
    · obtain ⟨e', he', hs'⟩ := readOne_keeps_sound hsound hst hne
      exact ⟨readOne_statusLegal h.status hne, fun e'' he => by rw [he'] at he; injection he with he; exact he ▸ hs'⟩
    · exact ends (concludeCommand_ends e s)
    · exact ends ⟨raiseError_statusLegal c e s, raiseError_phase c e s⟩
    · exact ends ⟨raiseError_statusLegal c e _, raiseError_phase c e _⟩

theorem State.Inv.engineTurn {s : State} (h : s.Inv) (hr : s.resetAsserted = false) : (engineTurn s).Inv := by
  obtain ⟨hmem, hdirty, -, -, -, hreset, -⟩ := (engineTurn_frame s).env
  obtain ⟨hstatus, hcommand⟩ := engineTurn_keeps_command h
  exact {
    status := hstatus
    memory := hmem ▸ h.memory
    caches := hdirty ▸ h.caches
    command := hcommand
    inReset := fun ht => by rw [hreset, hr] at ht; cases ht }

theorem State.Inv.engineTurns (k : Nat) : ∀ {s : State}, s.Inv → s.resetAsserted = false → (engineTurns k s).Inv := by
  induction k with
  | zero => exact fun h _ => h
  | succ k ih =>
    intro s h hr
    obtain ⟨-, -, -, -, -, hreset, -⟩ := (engineTurn_frame s).env
    exact ih (h.engineTurn hr) (hreset.trans hr)

theorem State.Inv.acceptCommand {s : State} (h : s.Inv) (hb : s.busy = false) (w : Word) :
    (acceptCommand w (wordByteCount w s.len) s).Inv where
  status := h.status
  memory := h.memory
  caches := h.caches
  command := fun e he => by
    injection he with he
    exact he ▸ (latchCommand_sound w s).congr ⟨rfl, rfl, rfl, rfl⟩
  inReset := fun (hr : s.resetAsserted = true) => by rw [not_resetAsserted_of_not_busy hb] at hr; cases hr

theorem State.Inv.issueCommand {w : Word} {alone : Bool} {s t : State} (h : s.Inv) (hb : s.busy = false)
    (hi : issueCommand w alone s = .next t) : t.Inv := by
  have hr := not_resetAsserted_of_not_busy hb
  obtain ⟨w', rfl | rfl⟩ := issueCommand_cases hi
  · rw [runFrame_free _ _ hb]
    exact (h.acceptCommand hb w').engineTurns _ hr
  · exact h.acceptCommand hb w'

/-! ### The invariant, for the turns -/

theorem State.Inv.performAccess {a : Access} {alone : Bool} {s t : State} (h : s.Inv) (hb : s.busy = false)
    (hp : performAccess a alone s = .next t) : t.Inv := by
  obtain rfl | ⟨r, -, -, rfl⟩ | ⟨v, r, -, -, -, rfl⟩ | ⟨w, -, -, hi⟩ := performAccess_cases hp
  · exact h
  · exact h.respond _
  · exact (h.writeSlot hb v r).respond _
  · have hmaster : ({ s with master := a.host } : State).Inv :=
      h.of_sameEngine ⟨rfl, rfl, rfl, rfl⟩ ⟨rfl, rfl, rfl, rfl, rfl⟩ ⟨rfl, rfl⟩ h.memory h.caches
    exact hmaster.issueCommand hb hi

theorem clearEngine_engineCleared (s : State) : s.clearEngine.engineCleared := by
  unfold State.clearEngine
  cases s.phase <;> exact ⟨rfl, rfl, rfl, rfl, rfl, rfl, rfl, rfl, rfl, rfl⟩

theorem State.Inv.resetInput {s : State} (h : s.Inv) (b : Bool) : ({ s.clearEngine with resetAsserted := b } : State).Inv := by
  obtain ⟨hm, hd, -, -, -⟩ := clearEngine_env s
  exact .of_engineCleared (clearEngine_engineCleared s) (hm ▸ h.memory) (hd ▸ h.caches)

/-- Settles O47: each kind of step keeps the invariant; only the engine's own steps and the acceptance of a command touch what it
says of a command in execution. -/
theorem everyStepKeepsInvariant : Obligations.EveryStepKeepsInvariant := by
  unfold Obligations.EveryStepKeepsInvariant
  intro s t h hstep
  obtain ⟨rest, -, hcase⟩ := step_cases hstep
  have outside : ∀ {held m d}, m.wf → cellsSorted d → ({ s with script := rest, held := held, mem := m, dirty := d } : State).Inv :=
    fun hm hd => h.of_sameEngine ⟨rfl, rfl, rfl, rfl⟩ ⟨rfl, rfl, rfl, rfl, rfl⟩ ⟨rfl, rfl⟩ hm hd
  have hnext : ({ s with script := rest } : State).Inv := outside h.memory h.caches
  obtain ⟨rfl, -⟩ | ⟨hr, rfl⟩ | ⟨a, alone, -, r, -, rfl⟩ | ⟨hb, a, alone, held, -, hp⟩ | ⟨m, d, rfl, hmem⟩ |
    ⟨host, a, v, -, rfl⟩ | ⟨-, rfl⟩ | ⟨-, hr, rfl⟩ := hcase
  · exact hnext
  · exact hnext.engineTurn hr
  · exact outside h.memory h.caches
  · exact (outside h.memory h.caches).performAccess hb hp
  · obtain ⟨host, a, bs, -, hle, rfl, rfl⟩ | ⟨host, a, bs, -, hle, rfl, rfl⟩ | ⟨host, a, n, -, rfl, rfl⟩ |
      ⟨a, v, -, rfl, rfl⟩ := hmem
    · exact outside (Memory.wf_writeAll bs h.memory hle) (cellsSorted_outside _ _ h.caches)
    · exact outside h.memory (cellsSorted_putAll bs h.caches hle)
    · exact outside (Memory.wf_writeCells _ h.memory (cellsSorted_inside _ _ h.caches).2) (cellsSorted_outside _ _ h.caches)
    · exact outside (Memory.wf_write v h.memory a.isLt) (cellsSorted_outside _ _ h.caches)
  · exact hnext.respond _
  · exact hnext.resetInput true
  · rw [State.releaseReset, if_pos hr]
    exact hnext.resetInput false

/-! ### The reset state -/

theorem reset_engineCleared : State.reset.engineCleared := ⟨rfl, rfl, rfl, rfl, rfl, rfl, rfl, rfl, rfl, rfl⟩

/-- Settles O45: the engine is cleared, and CMD, the reserved slot and STATUS read 0. -/
theorem resetStateHoldsResetValues : Obligations.ResetStateHoldsResetValues := by
  unfold Obligations.ResetStateHoldsResetValues
  obtain ⟨haddr, hlen, hsrc, hdst, hresult, hdone, herr, hsticky, hcode, hphase⟩ := reset_engineCleared
  exact ⟨haddr, hlen, hsrc, hdst, hresult, hdone, herr, hsticky, hcode, hphase, rfl, rfl, rfl⟩

/-- Settles O46: a cleared engine over an empty memory and empty caches. -/
theorem resetStateMeetsInvariant : Obligations.ResetStateMeetsInvariant :=
  .of_engineCleared reset_engineCleared (by decide) (by decide)

end Sys2Proof.Machine
end

section
/-! PROOF. Data memory, the caches and the read port: a write and a read of one byte, what a host's or another master's write and a
clean leave for the port and for the hosts to read, and where a host's access stops the run (20_memory.md rules R33, R34, R45 to
R47 and R52). -/

namespace Sys2Proof.Machine

/-! ### One canonical form -/

/-- Two canonical memories that read alike have the same cells: the reads say which cells there are. -/
theorem Memory.ext_of_wf {m₁ m₂ : Memory} (h₁ : m₁.wf) (h₂ : m₂.wf) (h : ∀ a, m₁.read a = m₂.read a) : m₁ = m₂ :=
  cells_ext h₁.1.1 h₂.1.1 fun a => by rw [cellsFind_of_wf h₁, cellsFind_of_wf h₂, h]

/-- Settles O49: a write keeps the canonical form and changes one read, and the reads fix the form. -/
theorem memoryWriteThenRead : Obligations.MemoryWriteThenRead := by
  unfold Obligations.MemoryWriteThenRead
  exact ⟨fun m a c v hm ha => ⟨Memory.wf_write v hm ha, Memory.read_write m a c v⟩,
    fun _ _ h₁ h₂ h => Memory.ext_of_wf h₁ h₂ h⟩

/-! ### What the port returns -/

theorem portRead_of_not_dirty {s : State} {d : ReadDraw} {a : Word} (hr : s.platform.regionAt a.toNat = none)
    (hd : d.answer = .data) (hc : cellsFind s.dirty a.toNat = none) : s.portRead d a = .data (s.mem.read a.toNat) := by
  simp only [portRead_plain hr hd, State.seenByte, hc]

theorem portRead_of_dirty {s : State} {d : ReadDraw} {a : Word} {v : Byte} (hr : s.platform.regionAt a.toNat = none)
    (hd : d.answer = .data) (hc : cellsFind s.dirty a.toNat = some v) :
    s.portRead d a = .data (if s.platform.readPortCoherent || d.seesDirty then v else s.mem.read a.toNat) := by
  simp only [portRead_plain hr hd, State.seenByte, hc]

/-- Settles O51: a dirty byte goes by the port's coherence and the draw, any other byte is memory's. -/
theorem portReadOfPlainMemory : Obligations.PortReadOfPlainMemory := by
  unfold Obligations.PortReadOfPlainMemory
  intro s d a hr hd
  refine ⟨fun v hc hcoh => ?_, fun v hc hcoh => ?_, portRead_of_not_dirty hr hd⟩
  · rw [portRead_of_dirty hr hd hc, hcoh, Bool.true_or, if_pos rfl]
  · rw [portRead_of_dirty hr hd hc, hcoh, Bool.false_or]

/-! ### A run of bytes, read at its offsets and outside -/

theorem Memory.read_writeAll_at (m : Memory) (a : Nat) {bs : List Byte} {j : Nat} (hj : j < bs.length) :
    (m.writeAll a bs).read (a + j) = bs[j] := by
  rw [Memory.read_writeAll, dif_pos (by omega)]
  simp only [Nat.add_sub_cancel_left]

theorem Memory.read_writeAll_outside (m : Memory) {a c : Nat} {bs : List Byte} (h : c < a ∨ a + bs.length ≤ c) :
    (m.writeAll a bs).read c = m.read c := by
  rw [Memory.read_writeAll, dif_neg (by omega)]

theorem cellsFind_putAll_at (cs : List Host.Cell) (a : Nat) {bs : List Byte} {j : Nat} (hj : j < bs.length) :
    cellsFind (cellsPutAll cs a bs) (a + j) = some bs[j] := by
  rw [cellsFind_putAll, dif_pos (by omega)]
  simp only [Nat.add_sub_cancel_left]

theorem cellsFind_putAll_outside (cs : List Host.Cell) {a c : Nat} {bs : List Byte} (h : c < a ∨ a + bs.length ≤ c) :
    cellsFind (cellsPutAll cs a bs) c = cellsFind cs c := by
  rw [cellsFind_putAll, dif_neg (by omega)]

theorem cellsFind_outside_at (cs : List Host.Cell) (a : Nat) {n j : Nat} (hj : j < n) :
    cellsFind (cellsOutside a n cs) (a + j) = none := by
  rw [cellsFind_outside, if_pos (by omega)]

theorem cellsFind_outside_beyond (cs : List Host.Cell) {a n c : Nat} (h : c < a ∨ a + n ≤ c) :
    cellsFind (cellsOutside a n cs) c = cellsFind cs c := by
  rw [cellsFind_outside, if_neg (by omega)]

/-- A clean leaves in memory what the host itself would read. -/
theorem Memory.read_writeCells_inside {cs : List Host.Cell} (m : Memory) (a : Nat) {n j : Nat} (hs : cellsSorted cs)
    (hj : j < n) : (m.writeCells (cellsInside a n cs)).read (a + j) = (cellsFind cs (a + j)).getD (m.read (a + j)) := by
  rw [Memory.read_writeCells _ _ _ (cellsSorted_inside a n hs).1, cellsFind_inside, if_pos (by omega)]

theorem Memory.read_writeCells_outside {cs : List Host.Cell} (m : Memory) {a n c : Nat} (hs : cellsSorted cs)
    (h : c < a ∨ a + n ≤ c) : (m.writeCells (cellsInside a n cs)).read c = m.read c := by
  rw [Memory.read_writeCells _ _ _ (cellsSorted_inside a n hs).1, cellsFind_inside, if_neg (by omega), Option.getD_none]

/-! ### The four memory turns of a host, and another master's write -/

/-- The state after the bytes `bs` are performed to memory from `a` upward. -/
def State.stored (a : Nat) (bs : List Byte) (s : State) : State :=
  { s with mem := s.mem.writeAll a bs, dirty := cellsOutside a bs.length s.dirty }

/-- The state after the bytes `bs` are put into a cache from `a` upward. -/
def State.cached (a : Nat) (bs : List Byte) (s : State) : State := { s with dirty := cellsPutAll s.dirty a bs }

/-- The state after the `n` bytes from `a` are cleaned. -/
def State.cleaned (a n : Nat) (s : State) : State :=
  { s with mem := s.mem.writeCells (cellsInside a n s.dirty), dirty := cellsOutside a n s.dirty }

theorem storeBytes_eq (a : Word) (bs : List Byte) (s : State) :
    storeBytes a bs s = if a.toNat + bs.length ≤ 2 ^ 32 then .next (s.stored a.toNat bs) else .fault .dataAddressAbsent := by
  simp only [storeBytes, insideDataSpace_iff, State.stored]

theorem storeCachedBytes_eq (a : Word) (bs : List Byte) (s : State) : storeCachedBytes a bs s =
    if a.toNat + bs.length ≤ 2 ^ 32 then .next (s.cached a.toNat bs) else .fault .dataAddressAbsent := by
  simp only [storeCachedBytes, insideDataSpace_iff, State.cached]

theorem cleanBytes_eq (a : Word) (n : Nat) (s : State) :
    cleanBytes a n s = if a.toNat + n ≤ 2 ^ 32 then .next (s.cleaned a.toNat n) else .fault .dataAddressAbsent := by
  simp only [cleanBytes, insideDataSpace_iff, State.cleaned]

theorem loadHalf_past_top {a : Word} (host : Nat) (s : State) (h : 2 ^ 32 < a.toNat + 2) :
    loadHalf host a s = .fault .dataAddressAbsent :=
  if_neg (mt (insideDataSpace_iff a 2).mp (Nat.not_le.mpr h))

theorem masterWriteByte_eq_stored (a : Word) (v : Byte) (s : State) : masterWriteByte a v s = s.stored a.toNat [v] := rfl

/-- Settles O56: the turn of each kind of access asks whether its bytes lie in the space. -/
theorem hostAccessPastTopFaults : Obligations.HostAccessPastTopFaults := by
  unfold Obligations.HostAccessPastTopFaults
  intro s host a bs n rest
  exact ⟨fun hs hpast => (step_of_script hs).trans ((storeBytes_eq a bs _).trans (if_neg (Nat.not_le.mpr hpast))),
    fun hs hpast => (step_of_script hs).trans ((storeCachedBytes_eq a bs _).trans (if_neg (Nat.not_le.mpr hpast))),
    fun hs hpast => (step_of_script hs).trans ((cleanBytes_eq a n _).trans (if_neg (Nat.not_le.mpr hpast))),
    fun hs hpast => (step_of_script hs).trans (loadHalf_past_top host _ hpast)⟩

/-! ### What is read after each of them -/

section
variable (s : State) {a : Word} {bs : List Byte}

theorem portRead_stored {j : Nat} (ha : a.toNat + bs.length ≤ 2 ^ 32) (hj : j < bs.length) {d : ReadDraw}
    (hr : s.platform.regionAt (a.toNat + j) = none) (hd : d.answer = .data) :
    (s.stored a.toNat bs).portRead d (a + BitVec.ofNat 32 j) = .data bs[j] := by
  have haddr := address_toNat ha hj
  rw [portRead_of_not_dirty (by rwa [haddr]) hd (by rw [haddr]; exact cellsFind_outside_at s.dirty a.toNat hj), haddr]
  exact congrArg _ (Memory.read_writeAll_at s.mem a.toNat hj)

theorem portRead_stored_outside (d : ReadDraw) {c : Word} (h : c.toNat < a.toNat ∨ a.toNat + bs.length ≤ c.toNat) :
    (s.stored a.toNat bs).portRead d c = s.portRead d c :=
  portRead_congr d rfl rfl (Memory.read_writeAll_outside s.mem h) (cellsFind_outside_beyond s.dirty h)

theorem portRead_cached {j : Nat} (ha : a.toNat + bs.length ≤ 2 ^ 32) (hj : j < bs.length) {d : ReadDraw}
    (hr : s.platform.regionAt (a.toNat + j) = none) (hd : d.answer = .data) :
    (s.cached a.toNat bs).portRead d (a + BitVec.ofNat 32 j) =
      .data (if s.platform.readPortCoherent || d.seesDirty then bs[j] else s.mem.read (a.toNat + j)) := by
  have haddr := address_toNat ha hj
  rw [portRead_of_dirty (by rwa [haddr]) hd (by rw [haddr]; exact cellsFind_putAll_at s.dirty a.toNat hj), haddr]
  rfl

theorem portRead_cached_outside (d : ReadDraw) {c : Word} (h : c.toNat < a.toNat ∨ a.toNat + bs.length ≤ c.toNat) :
    (s.cached a.toNat bs).portRead d c = s.portRead d c :=
  portRead_congr d rfl rfl rfl (cellsFind_putAll_outside s.dirty h)

theorem portRead_cleaned {n j : Nat} (hs : cellsSorted s.dirty) (ha : a.toNat + n ≤ 2 ^ 32) (hj : j < n) {d : ReadDraw}
    (hr : s.platform.regionAt (a.toNat + j) = none) (hd : d.answer = .data) :
    (s.cleaned a.toNat n).portRead d (a + BitVec.ofNat 32 j) = .data (s.hostByte (a.toNat + j)) := by
  have haddr := address_toNat ha hj
  rw [portRead_of_not_dirty (by rwa [haddr]) hd (by rw [haddr]; exact cellsFind_outside_at s.dirty a.toNat hj), haddr]
  exact congrArg _ (Memory.read_writeCells_inside s.mem a.toNat hs hj)

end

/-- Settles O50: a performed run stands in memory and in no cache, so that the port reads memory there. -/
theorem performedBytesAreSeen : Obligations.PerformedBytesAreSeen := by
  unfold Obligations.PerformedBytesAreSeen
  constructor
  · intro s host a bs rest hscript ha
    refine ⟨({ s with script := rest } : State).stored a.toNat bs,
      (step_of_script hscript).trans ((storeBytes_eq a bs _).trans (if_pos ha)), rfl,
      fun j hj => ⟨?_, ?_, ?_⟩, fun c hc => ⟨?_, ?_⟩⟩
    · exact Memory.read_writeAll_at s.mem a.toNat hj
    · exact cellsFind_outside_at s.dirty a.toNat hj
    · exact fun d hr hd => portRead_stored { s with script := rest } ha hj hr hd
    · exact Memory.read_writeAll_outside s.mem hc
    · exact cellsFind_outside_beyond s.dirty hc
  · intro s host a n rest hscript ha hsorted
    refine ⟨({ s with script := rest } : State).cleaned a.toNat n,
      (step_of_script hscript).trans ((cleanBytes_eq a n _).trans (if_pos ha)), rfl,
      fun j hj => ⟨?_, ?_, ?_⟩, fun c hc => ⟨?_, ?_⟩⟩
    · exact Memory.read_writeCells_inside s.mem a.toNat hsorted hj
    · exact cellsFind_outside_at s.dirty a.toNat hj
    · exact fun d hr hd => portRead_cleaned { s with script := rest } hsorted ha hj hr hd
    · exact Memory.read_writeCells_outside s.mem hsorted hc
    · exact cellsFind_outside_beyond s.dirty hc

theorem hostByte_congr {s t : State} {a : Nat} (hm : t.mem = s.mem) (hc : cellsFind t.dirty a = cellsFind s.dirty a) :
    t.hostByte a = s.hostByte a := by
  simp only [State.hostByte, hm, hc]

/-- Settles O54: a cached run stands dirty, and a host reads its caches first. -/
theorem cachedStoreStaysDirty : Obligations.CachedStoreStaysDirty := by
  unfold Obligations.CachedStoreStaysDirty
  intro s host a bs rest hscript ha
  refine ⟨({ s with script := rest } : State).cached a.toNat bs,
    (step_of_script hscript).trans ((storeCachedBytes_eq a bs _).trans (if_pos ha)), rfl, fun j hj => ?_, fun c hc => ?_⟩
  · have hdirty := cellsFind_putAll_at s.dirty a.toNat hj
    exact ⟨hdirty, State.hostByte_of_dirty hdirty⟩
  · have hsame := cellsFind_putAll_outside s.dirty hc
    exact ⟨hsame, hostByte_congr rfl hsame⟩

/-! ### A write during a command -/

section
variable {s t : State} {rest : List Turn}

theorem next_of_guarded {p : Prop} [Decidable p] {u : State} {f : Fault}
    (h : (if p then .next u else .fault f : Host.Outcome State Fault Refusal) = .next t) : p ∧ t = u := by
  by_cases hp : p
  · rw [if_pos hp] at h
    injection h with h
    exact ⟨hp, h.symm⟩
  · rw [if_neg hp] at h
    cases h

theorem step_masterWrite {a : Word} {v : Byte} (hscript : s.script = .masterWrite a v :: rest) (h : step s = .next t) :
    t = ({ s with script := rest } : State).stored a.toNat [v] := by
  rw [step_of_script hscript] at h
  injection h with h
  exact h.symm

variable {host : Nat} {a : Word} {bs : List Byte}

theorem step_store (hscript : s.script = .store host a bs :: rest) (h : step s = .next t) :
    a.toNat + bs.length ≤ 2 ^ 32 ∧ t = ({ s with script := rest } : State).stored a.toNat bs := by
  rw [step_of_script hscript, takeTurn, storeBytes_eq] at h
  exact next_of_guarded h

theorem step_storeCached (hscript : s.script = .storeCached host a bs :: rest) (h : step s = .next t) :
    a.toNat + bs.length ≤ 2 ^ 32 ∧ t = ({ s with script := rest } : State).cached a.toNat bs := by
  rw [step_of_script hscript, takeTurn, storeCachedBytes_eq] at h
  exact next_of_guarded h

end

/-- Settles O52: no write touches the command in execution, and the port reads the written run as the write left it and every
other byte as before. Another master's write is a performed run of one byte. -/
theorem writeDuringCommandReachesLaterReadsOnly : Obligations.WriteDuringCommandReachesLaterReadsOnly := by
  unfold Obligations.WriteDuringCommandReachesLaterReadsOnly
  refine ⟨?_, ?_, ?_⟩
  · intro s t e a v rest hp hscript h
    obtain rfl := step_masterWrite hscript h
    have hone : a.toNat + [v].length ≤ 2 ^ 32 := a.isLt
    refine ⟨hp, fun d hr hd => ?_, fun d c hc => ?_⟩
    · have hread := portRead_stored { s with script := rest } (j := 0) hone (by simp) hr hd
      rwa [BitVec.add_zero] at hread
    · have hne : c.toNat ≠ a.toNat := fun heq => hc (BitVec.eq_of_toNat_eq heq)
      exact portRead_stored_outside { s with script := rest } d (by rw [List.length_singleton]; omega)
  · intro s t e host a bs rest hp hscript h
    obtain ⟨ha, rfl⟩ := step_store hscript h
    exact ⟨hp, fun j hj d hr hd => portRead_stored { s with script := rest } ha hj hr hd,
      fun d c hc => portRead_stored_outside { s with script := rest } d hc⟩
  · intro s t e host a bs rest hp hscript h
    obtain ⟨ha, rfl⟩ := step_storeCached hscript h
    exact ⟨hp, fun j hj d hr hd => portRead_cached { s with script := rest } ha hj hr hd,
      fun d c hc => portRead_cached_outside { s with script := rest } d hc⟩

/-! ### The engine and the window write no memory -/

theorem performAccess_mem {a : Access} {alone : Bool} {s t : State} (h : performAccess a alone s = .next t)
    (hb : s.busy = false) : t.mem = s.mem := by
  obtain rfl | ⟨r, -, -, rfl⟩ | ⟨v, r, -, -, -, rfl⟩ | ⟨w, -, -, hi⟩ := performAccess_cases h
  · rfl
  · rfl
  · exact (writeSlot_env s v r).1
  · exact (issueCommand_frame hi hb).env.1

/-- Settles O41: the engine's frame, and of all the turns only a store, a clean and another master's write change memory. -/
theorem engineNeverWritesMemory : Obligations.EngineNeverWritesMemory := by
  unfold Obligations.EngineNeverWritesMemory
  constructor
  · intro s
    obtain ⟨hops, ⟨hmem, hdirty, -⟩, -⟩ := engineTurn_frame s
    exact ⟨hmem, hdirty, hops⟩
  · intro s t h hnostore hnoclean hnomaster
    obtain ⟨rest, -, ⟨rfl, -⟩ | ⟨-, rfl⟩ | ⟨a, alone, -, r, -, rfl⟩ | ⟨hb, a, alone, held, -, hp⟩ | ⟨m, d, rfl, hwrite⟩ |
      ⟨host, a, v, -, rfl⟩ | ⟨-, rfl⟩ | ⟨-, -, rfl⟩⟩ := step_cases h
    · rfl
    · exact (engineTurn_frame { s with script := rest }).env.1
    · rfl
    · exact performAccess_mem (s := { s with script := rest, held := held }) hp hb
    · obtain ⟨host, a, bs, hs, -⟩ | ⟨host, a, bs, -, -, rfl, -⟩ | ⟨host, a, n, hs, -⟩ | ⟨a, v, hs, -⟩ := hwrite
      · exact absurd hs (hnostore host a bs rest)
      · rfl
      · exact absurd hs (hnoclean host a n rest)
      · exact absurd hs (hnomaster a v rest)
    · rfl
    · exact (clearEngine_env { s with script := rest }).1
    · exact (releaseReset_env { s with script := rest }).1

end Sys2Proof.Machine
end

section
/-! PROOF. How a command over a valid range ends, by what answers its reads: with its value over the bytes it read, with BUS, or not
at all (20_memory.md rules R34, R37, R38, R42 to R46 and R52; 40_internet_checksum.md rule R68; 60_exceptions.md rules R105 and
R108; 70_reset_and_hazards.md rule R130). -/

namespace Sys2Proof.Machine

/-! ### A command as it starts, and as it ends -/

section
variable {s : State} {n : Nat} (w : Word) (hv : s.addr.toNat + n ≤ 2 ^ 32)
include hv

theorem latchCommand_error_none : (latchCommand w (some n) s).error = none := acceptError_valid hv

theorem latchCommand_pending : (latchCommand w (some n) s).pending = List.range n := by
  simp [latchCommand, acceptError_valid hv]

theorem mem_latchCommand_pending {j : Nat} : j ∈ (latchCommand w (some n) s).pending ↔ j < n := by
  rw [latchCommand_pending w hv, List.mem_range]

theorem latchCommand_pending_length : (latchCommand w (some n) s).pending.length = n := by
  rw [latchCommand_pending w hv, List.length_range]

/-- What holds at the address of every pending offset holds at every address of the range. -/
theorem forall_latchCommand_pending (p : Nat → Prop) :
    (∀ j ∈ (latchCommand w (some n) s).pending, p ((latchCommand w (some n) s).address j).toNat) ↔
      ∀ j < n, p (s.addr.toNat + j) := by
  refine forall_congr' fun j => ?_
  rw [mem_latchCommand_pending w hv]
  exact forall_congr' fun hj => by rw [Exec.address, latchCommand, address_toNat hv hj]

theorem exists_latchCommand_pending (p : Nat → Prop) :
    (∃ j ∈ (latchCommand w (some n) s).pending, p ((latchCommand w (some n) s).address j).toNat) ↔
      ∃ j < n, p (s.addr.toNat + j) := by
  simpa using not_congr (forall_latchCommand_pending w hv fun a => ¬p a)

end

theorem engineTurn_completes {s : State} {e : Exec} {i : Instr} (hp : s.phase = .exec e) (hst : e.stalled = none)
    (he : e.error = none) (hq : e.pending = []) (hd : decode e.cmd = .command i) :
    engineTurn s = completeOk (compute i e.byteAt (byteCount i e.opLen) e.opLen e.opSrc e.opDst) e s := by
  simp only [engineTurn, hp, hst, he, hq, concludeCommand, hd]

/-- The state after a command with value `v` and `n` reads has completed. -/
def State.completed (v : Half) (n : Nat) (s : State) : State :=
  { s with
    result := v, done := true, err := false, errcode := 0#4
    responses := s.responses ++ [Response.writeDone s.master]
    draws := s.draws.drop n
    fresh := s.fresh + n }

/-! ### Reads answered with data -/

/-- `t` stands between the reads of a command of `n` reads issued in `s`, as far as its next read can tell. -/
structure DuringReads (n : Nat) (s t : State) : Prop where
  platform : t.platform = s.platform
  mem : t.mem = s.mem
  dirty : t.dirty = s.dirty
  fresh : s.fresh ≤ t.fresh ∧ t.fresh < s.fresh + n

/-- A command whose reads are all answered with data completes with its value over bytes that `P` allows, where `P` allows whatever
the port can return during the command. -/
theorem exec_answered (P : Nat → Byte → Prop) {i : Instr} {s : State} {n : Nat} (hwf : i.WellFormed = true)
    (hb : s.busy = false) (hn : n = byteCount i s.len) (hv : s.addr.toNat + n ≤ 2 ^ 32) (ha : s.readsAnswered n)
    (hread : ∀ j < n, ∀ (d : ReadDraw) (t : State), d.answer = .data → DuringReads n s t →
      ∃ v, t.portRead d (s.addr + BitVec.ofNat 32 j) = .data v ∧ P j v) :
    ∃ b : Nat → Byte, (∀ j < n, P j (b j)) ∧
      exec i s = .next (s.completed (compute i b n s.len s.ipsrc s.ipdst) n) := by
  set e := latchCommand (encode i) (some n) s
  obtain ⟨B, A, hrun, hB⟩ := engineTurns_answered P n (s.setPhase (.exec e)) e (latchCommand_pending_length _ hv) rfl rfl
    (latchCommand_error_none _ hv) ha fun j hj d t hd hp hm hc hf hf' =>
      hread j ((mem_latchCommand_pending _ hv).mp hj) d t hd ⟨hp, hm, hc, hf, hf'⟩
  set e' : Exec := { e with pending := [], bytes := B, acc := A }
  refine ⟨e'.byteAt, fun j hj => ?_, ?_⟩
  · obtain ⟨v, hlook, hP⟩ := (hB j).1 ((mem_latchCommand_pending _ hv).mpr hj)
    have hbyte : e'.byteAt j = v := by simp only [Exec.byteAt, e', hlook, Option.getD_some]
    exact hbyte ▸ hP
  · have hend := engineTurn_completes (s := engineTurns n (s.setPhase (.exec e))) (e := e') (by rw [hrun]) rfl
      (latchCommand_error_none (encode i) hv) rfl (decode_encode hwf)
    rw [exec_valid hb hn hv, engineTurns_add, engineTurns, engineTurns, hend, hrun, completeOk, State.completed,
      ← idle_of_not_busy hb, hn]
    rfl

/-- Over a settled range the bytes read are those that stand there now. -/
theorem exec_settled {i : Instr} {s : State} {n : Nat} (hwf : i.WellFormed = true) (hb : s.busy = false)
    (hn : n = byteCount i s.len) (hv : s.addr.toNat + n ≤ 2 ^ 32) (hset : s.rangeSettled n) (ha : s.readsAnswered n) :
    exec i s = .next (s.completed (compute i s.rangeByte n s.len s.ipsrc s.ipdst) n) := by
  obtain ⟨b, hb', hexec⟩ := exec_answered (fun j v => v = s.rangeByte j) hwf hb hn hv ha fun j hj d t hd ht => by
    obtain ⟨hplain, hseen⟩ := hset j hj
    refine ⟨_, portRead_plain (by rw [ht.platform]; exact hplain) hd, ?_⟩
    rw [State.rangeByte, ← State.seenByte_settled d.seesDirty hseen]
    simp only [State.seenByte, ht.platform, ht.mem, ht.dirty]
  rw [hexec, compute_congr i s.len s.ipsrc s.ipdst hb']

/-- Settles O16: the settled command, whose count is that of LEN read as a signed number. -/
theorem csumInetCompletesWithSum : Obligations.CsumInetCompletesWithSum := by
  unfold Obligations.CsumInetCompletesWithSum
  exact fun s n hn hb hv hset ha => exec_settled (i := .csumInet) rfl hb hn hv hset ha

/-- Settles O17: the settled command, whose count is that of the command word. -/
theorem csumIphdrCompletesWithComplement : Obligations.CsumIphdrCompletesWithComplement := by
  unfold Obligations.CsumIphdrCompletesWithComplement
  exact fun s h hh hb hv hset ha => exec_settled (i := .csumIphdr h) (decide_eq_true hh) hb rfl hv hset ha

/-- Settles O18: the settled command, with the halves of the addresses written as quotient and remainder. -/
theorem csumUdpCompletesWithComplement : Obligations.CsumUdpCompletesWithComplement := by
  unfold Obligations.CsumUdpCompletesWithComplement
  intro s hb hv hset ha
  rw [← udpSum s.ipsrc, ← udpSum s.ipdst]
  exact exec_settled (i := .csumUdp) rfl hb rfl hv hset ha

/-- Settles O27: both commands complete with the value over bytes and operands that agree. -/
theorem outcomeDependsOnRangeBytesOnly : Obligations.OutcomeDependsOnRangeBytesOnly := by
  unfold Obligations.OutcomeDependsOnRangeBytesOnly
  intro i s₁ s₂ t₁ t₂ hwf hb₁ hb₂ hlen hsrc hdst hv₁ hv₂ hset₁ hset₂ ha₁ ha₂ hbytes h₁ h₂
  rw [exec_settled hwf hb₁ rfl hv₁ hset₁ ha₁] at h₁
  rw [exec_settled hwf hb₂ rfl hv₂ hset₂ ha₂] at h₂
  injection h₁ with h₁
  injection h₂ with h₂
  subst h₁ h₂
  refine ⟨?_, rfl, rfl, rfl⟩
  rw [State.completed, State.completed, compute_congr i _ _ _ hbytes, hlen, hsrc, hdst]

/-- The bytes that the port may return for offset `j` of a range of `n` bytes, whether or not the range is settled. -/
def State.mayReturn (s : State) (n j : Nat) (v : Byte) : Prop :=
  (s.platform.regionAt (s.addr.toNat + j) = none →
    (cellsFind s.dirty (s.addr.toNat + j) = none → v = s.mem.read (s.addr.toNat + j)) ∧
    (∀ c, cellsFind s.dirty (s.addr.toNat + j) = some c →
      v = c ∨ (s.platform.readPortCoherent = false ∧ v = s.mem.read (s.addr.toNat + j)))) ∧
  (s.platform.regionAt (s.addr.toNat + j) = some .sideEffects → ∃ k < n, v = Config.deviceByte (s.fresh + k))

theorem seenByte_of_not_dirty {s : State} {a : Word} (d : Bool) (hc : cellsFind s.dirty a.toNat = none) :
    s.seenByte d a = s.mem.read a.toNat := by
  simp only [State.seenByte, hc]

theorem seenByte_of_dirty {s : State} {a : Word} {c : Byte} (d : Bool) (hc : cellsFind s.dirty a.toNat = some c) :
    s.seenByte d a = c ∨ (s.platform.readPortCoherent = false ∧ s.seenByte d a = s.mem.read a.toNat) := by
  simp only [State.seenByte, hc]
  cases s.platform.readPortCoherent with
  | true => exact .inl rfl
  | false => cases d with
    | true => exact .inl rfl
    | false => exact .inr ⟨rfl, rfl⟩

theorem portRead_sideEffects {s : State} {d : ReadDraw} {a : Word} (hr : s.platform.regionAt a.toNat = some .sideEffects)
    (hd : d.answer = .data) : s.portRead d a = .data (Config.deviceByte s.fresh) := by
  simp only [State.portRead, hr, hd]

theorem portRead_mayReturn {s t : State} {n j : Nat} {d : ReadDraw} (hv : s.addr.toNat + n ≤ 2 ^ 32) (hj : j < n)
    (hr : s.platform.regionAt (s.addr.toNat + j) = none ∨ s.platform.regionAt (s.addr.toNat + j) = some .sideEffects)
    (hd : d.answer = .data) (ht : DuringReads n s t) :
    ∃ v, t.portRead d (s.addr + BitVec.ofNat 32 j) = .data v ∧ s.mayReturn n j v := by
  unfold State.mayReturn
  rw [← address_toNat hv hj, ← ht.platform] at hr ⊢
  rw [← ht.mem, ← ht.dirty]
  obtain hplain | hside := hr
  · exact ⟨_, portRead_plain hplain hd, fun _ => ⟨seenByte_of_not_dirty _, fun c => seenByte_of_dirty _⟩,
      fun h => absurd (hplain.symm.trans h) (by simp)⟩
  · obtain ⟨hle, hlt⟩ := ht.fresh
    exact ⟨_, portRead_sideEffects hside hd, fun h => absurd (hside.symm.trans h) (by simp),
      fun _ => ⟨t.fresh - s.fresh, by omega, by rw [Nat.add_sub_cancel' hle]⟩⟩

/-- Settles O19: the answered command, each byte one that the port may return. -/
theorem answeredCommandSumsTheBytesItRead : Obligations.AnsweredCommandSumsTheBytesItRead := by
  unfold Obligations.AnsweredCommandSumsTheBytesItRead
  intro i s n hn hwf hb hv ha hr
  obtain ⟨b, hbytes, hexec⟩ := exec_answered (s.mayReturn n) hwf hb hn hv ha
    fun j hj d t hd ht => portRead_mayReturn hv hj (hr j hj) hd ht
  exact ⟨b, fun j hj => (hbytes j hj).1, fun j hj => (hbytes j hj).2, hexec⟩

/-! ### Reads answered with a bus error, or never -/

/-- Settles O22: the reads of the command run to a bus error, and RESULT is the only other register written. -/
theorem busErrorAnswerRaisesBus : Obligations.BusErrorAnswerRaisesBus := by
  unfold Obligations.BusErrorAnswerRaisesBus
  intro i s n hn _ hb hv hdraws hregions hbus
  set e := latchCommand (encode i) (some n) s
  have hlength : e.pending.length = n := latchCommand_pending_length _ hv
  have hanswering : (s.setPhase (.exec e)).answering e :=
    ⟨fun k hk => hdraws k (hlength ▸ hk), (forall_latchCommand_pending _ hv fun a =>
      s.platform.regionAt a ≠ some .ownWindow ∧ s.platform.regionAt a ≠ some .unanswered).mpr hregions⟩
  obtain ⟨reads, used, h1, h2, h3, h4, hrun⟩ := engineTurns_busError n (s.setPhase (.exec e)) e hlength rfl rfl
    (latchCommand_error_none _ hv) hanswering
    (hbus.imp_right (exists_latchCommand_pending _ hv fun a => s.platform.regionAt a = some .busError).mpr)
  refine ⟨reads, used, h1, h2, h3, h4, ?_⟩
  rw [exec_valid hb hn hv, hrun, ← idle_of_not_busy hb]
  rfl

/-- Settles O23: the reads of the command run to one that is never answered, and there the engine stays. -/
theorem unansweredReadHangsCommand : Obligations.UnansweredReadHangsCommand := by
  unfold Obligations.UnansweredReadHangsCommand
  intro i s n hn _ hb hv hdraws hregions hsilent
  set e := latchCommand (encode i) (some n) s
  obtain ⟨e', reads, hstalled, hcmd, hissuer, h1, h2, hrun⟩ := engineTurns_unanswered n (s.setPhase (.exec e)) e
    (latchCommand_pending_length _ hv) rfl rfl (latchCommand_error_none _ hv) hdraws
    ((forall_latchCommand_pending _ hv fun a => s.platform.regionAt a ≠ some .busError).mpr hregions)
    (hsilent.imp_right (exists_latchCommand_pending _ hv fun a =>
      s.platform.regionAt a = some .ownWindow ∨ s.platform.regionAt a = some .unanswered).mpr)
  exact ⟨e', reads, hstalled, hcmd, hissuer, h1, h2, (exec_valid hb hn hv).trans (congrArg _ hrun),
    engineTurn_stalled rfl hstalled⟩

end Sys2Proof.Machine
end

section
/-! PROOF. The command word: what decodes to each command, and what is illegal (30_encoding.md rules R54 and R56 to R61). -/

namespace Sys2Proof.Machine

/-! ### One word a command -/

theorem encode_csumIphdr_toNat {h : Nat} (hh : h ≤ 15) : (encode (.csumIphdr h)).toNat = 16 * h + 2 := by
  interval_cases h <;> rfl

theorem encode_of_decode {w : Word} {i : Instr} (h : decode w = .command i) : encode i = w := by
  apply BitVec.eq_of_toNat_eq
  rw [decode_spec] at h
  split_ifs at h with hrsvd hinet hiphdr hudp hstray <;> cases h
  · change 1 = w.toNat
    omega
  · rw [encode_csumIphdr_toNat (by omega)]
    omega
  · change 3 = w.toNat
    omega

theorem decode_eq_command_iff (w : Word) (i : Instr) :
    decode w = .command i ↔ i.WellFormed = true ∧ encode i = w := by
  constructor
  · exact fun h => ⟨wellFormed_of_decode h, encode_of_decode h⟩
  · rintro ⟨hwf, rfl⟩
    exact decode_encode hwf

/-- Settles O2, by the round trip of each command. -/
theorem decodeEncodeIsIdentity : Obligations.DecodeEncodeIsIdentity := by
  unfold Obligations.DecodeEncodeIsIdentity
  exact fun _ => decode_encode

/-- Settles O3: each branch of the decoder that answers a command fixes every bit of the word. -/
theorem decodedWordIsItsEncoding : Obligations.DecodedWordIsItsEncoding := by
  unfold Obligations.DecodedWordIsItsEncoding
  exact fun w i => (decode_eq_command_iff w i).mp

/-! ### The rows of the opcode map -/

/-- The row of a command that masks no bit. -/
theorem decode_eq_command_iff_fullRow (w : Word) {i : Instr} (hwf : i.WellFormed = true) :
    decode w = .command i ↔ w &&& 0xFFFFFFFF#32 = encode i := by
  have hmask : w &&& 0xFFFFFFFF#32 = w := BitVec.and_allOnes
  rw [decode_eq_command_iff, hmask, eq_comm (a := w), and_iff_right hwf]

/-- The row of CSUM_IPHDR masks HWORDS. -/
theorem decode_eq_csumIphdr_iff_row (w : Word) (h : Nat) :
    decode w = .command (.csumIphdr h) ↔ w &&& 0xFFFFFF0F#32 = 0x00000002#32 ∧ h = w.toNat / 16 % 16 := by
  have htwo : (0x00000002#32).toNat = 2 := rfl
  rw [BitVec.toNat_eq, and_mask, htwo]
  constructor
  · intro hd
    have hle : h ≤ 15 := of_decide_eq_true (wellFormed_of_decode hd)
    have hw : 16 * h + 2 = w.toNat := by rw [← encode_csumIphdr_toNat hle, encode_of_decode hd]
    omega
  · rintro ⟨hrow, hfield⟩
    have hle : h ≤ 15 := by omega
    have hw : (encode (.csumIphdr h)).toNat = w.toNat := by
      rw [encode_csumIphdr_toNat hle]
      omega
    exact (decode_eq_command_iff w _).mpr ⟨decide_eq_true hle, BitVec.eq_of_toNat_eq hw⟩

/-- Settles O4: each row is that of its command, and a word that matched two rows would decode to two commands. -/
theorem legalWordsMatchOpcodeMap : Obligations.LegalWordsMatchOpcodeMap := by
  unfold Obligations.LegalWordsMatchOpcodeMap
  intro w
  have hinet := decode_eq_command_iff_fullRow w (i := .csumInet) rfl
  have hiphdr := decode_eq_csumIphdr_iff_row w
  have hudp := decode_eq_command_iff_fullRow w (i := .csumUdp) rfl
  have hone : ∀ {i j : Instr}, decode w = .command i → decode w = .command j → i = j :=
    fun hi hj => Decoded.command.inj (hi.symm.trans hj)
  refine ⟨hinet, hiphdr, hudp, ?_, ?_, ?_⟩
  · exact fun ⟨h1, h2⟩ => Instr.noConfusion (hone (hinet.mpr h1) ((hiphdr _).mpr ⟨h2, rfl⟩))
  · exact fun ⟨h1, h3⟩ => Instr.noConfusion (hone (hinet.mpr h1) (hudp.mpr h3))
  · exact fun ⟨h2, h3⟩ => Instr.noConfusion (hone ((hiphdr _).mpr ⟨h2, rfl⟩) (hudp.mpr h3))

/-! ### The words that are no command, and words written out -/

/-- Settles O5, by the branches of the decoder. -/
theorem illegalWordsAreTheReservedOnes : Obligations.IllegalWordsAreTheReservedOnes := by
  unfold Obligations.IllegalWordsAreTheReservedOnes
  intro w
  rw [decode_spec]
  split_ifs with hrsvd hinet hiphdr hudp hstray
  · exact iff_of_true ⟨_, rfl⟩ (.inl hrsvd)
  · exact iff_of_false (by simp) (by omega)
  · exact iff_of_false (by simp) (by omega)
  · exact iff_of_false (by simp) (by omega)
  · exact iff_of_true ⟨_, rfl⟩ (by omega)
  · exact iff_of_true ⟨_, rfl⟩ (by omega)

/-- Settles O1: the decoder runs on each word. -/
theorem specWordsDecode : Obligations.SpecWordsDecode := by
  unfold Obligations.SpecWordsDecode
  decide

end Sys2Proof.Machine
end

section
/-! PROOF. The CMD write and the host's sequences about it: what a step that issues a word runs (30_encoding.md rules R53, R58 and
R62; 42_host_register_access.md rules R90 to R100; 60_exceptions.md rules R103 and R110). -/

namespace Sys2Proof.Machine

/-! ### The issue of one word -/

theorem issueCommand_of_command {w : Word} {i : Instr} (s : State) (hd : decode w = .command i) :
    issueCommand w true s = exec i s := by
  simp only [issueCommand, if_true, hd]

theorem issueCommand_of_illegal {w : Word} {why : IllegalWord} (s : State) (hd : decode w = .illegal why) :
    issueCommand w true s = .next (runFrame w none s) := by
  simp only [issueCommand, if_true, hd]

section
variable {s : State} {h : Nat} {w : Word} {rest : List Turn}

/-- A CMD write at a free window issues its word; CMD stands at REG_BASE itself. -/
theorem step_free_cmd {alone : Bool}
    (hs : s.script = .access { host := h, addr := s.platform.regBase, width := .word, op := .write w } alone :: rest)
    (hf : s.freeFor h = true) : step s = issueCommand w alone { s with script := rest, master := h } :=
  (step_free_write (r := .cmd) hs hf).trans (if_pos rfl)

theorem step_free_command {i : Instr}
    (hs : s.script = .access { host := h, addr := s.platform.regBase, width := .word, op := .write w } true :: rest)
    (hf : s.freeFor h = true) (hd : decode w = .command i) :
    step s = exec i { s with script := rest, master := h } :=
  (step_free_cmd hs hf).trans (issueCommand_of_command _ hd)

end

/-- Settles O28: the free window accepts the word and issues it. -/
theorem stepRunsDecodedCommand : Obligations.StepRunsDecodedCommand := by
  unfold Obligations.StepRunsDecodedCommand
  exact fun _ _ _ _ _ => step_free_command

/-- Settles O30: an illegal word runs the frame of no command, whatever ADDR and LEN hold. -/
theorem illegalWordRaisesIllegalCmd : Obligations.IllegalWordRaisesIllegalCmd := by
  unfold Obligations.IllegalWordRaisesIllegalCmd
  intro s h w why rest hs hf hd
  obtain ⟨hb, -⟩ := (freeFor_iff s h).mp hf
  rw [step_free_cmd hs hf, issueCommand_of_illegal _ hd]
  exact congrArg _ (runFrame_illegal hb)

theorem decode_of_decodeTableWord {nbits w : Nat} {i : Instr} (h : decodeTableWord nbits w = some i) :
    decode (BitVec.ofNat 32 (w % 2 ^ nbits)) = .command i := by
  unfold decodeTableWord at h
  split_ifs at h
  cases hd : decode (BitVec.ofNat 32 (w % 2 ^ nbits)) with
  | command j => simpa [hd] using h
  | illegal why => simp [hd] at h

/-- A placed word finds the window free: no command runs, and no access of host 0 is held. -/
theorem placeCommand_freeFor (w : Word) (s : State) : (s.placeCommand w).freeFor 0 = true :=
  (freeFor_iff _ 0).mpr ⟨rfl, by simp [State.placeCommand]⟩

/-- Settles O29: the placed word is the next CMD write at a free window. -/
theorem placedWordIsRunNext : Obligations.PlacedWordIsRunNext := by
  unfold Obligations.PlacedWordIsRunNext
  intro s nbits w i h
  exact step_free_command (s := s.withFetchWord nbits w) rfl (placeCommand_freeFor _ s) (decode_of_decodeTableWord h)

/-! ### A host's sequences -/

theorem writeStatus_of_bit_two {v : Word} {s : State} (hv : v.getLsbD 2 = true) :
    s.writeStatus v = { s with sticky := false } := by
  simp [State.writeStatus, hv]

/-- `k` steps from `s` go on to a state whose last command is DONE and whose next turns are `rest`, and bring the hosts the
responses `rs`. -/
def RunsToDone (k : Nat) (s : State) (rest : List Turn) (rs : List Response) : Prop :=
  ∃ t, Sys2Proof.core.run k s = .next t ∧ t.script = rest ∧ t.done = true ∧ t.responses = s.responses ++ rs

section
variable {s : State} {h : Nat} {rest : List Turn}

/-- A run that begins with the write of an operand or of STATUS. -/
theorem runsToDone_wr {r : Slot} {v : Word} {k : Nat} {tail : List Turn} {rs : List Response}
    (hs : s.script = (HostLine.wr r v).turn s.platform.regBase h :: tail) (hf : s.freeFor h = true) (hr : r ≠ .cmd)
    (hrun : RunsToDone k (({ s with script := tail }.writeSlot v r).respond (.writeDone h)) rest rs) :
    RunsToDone (k + 1) s rest (.writeDone h :: rs) := by
  obtain ⟨t, hnext, hscript, hdone, hresp⟩ := hrun
  have hwrite := (step_free_write hs hf).trans (if_neg hr)
  have hkept : ({ s with script := tail }.writeSlot v r).responses = s.responses := by cases r <;> rfl
  refine ⟨t, (run_next k hwrite).trans hnext, hscript, hdone, ?_⟩
  rw [hresp, State.respond_responses, hkept, List.append_assoc, List.singleton_append]

/-- The last two lines of every checksum sequence: the command, and the read of its value. -/
theorem runsToDone_cmd_rd_result {i : Instr} {c : Nat}
    (hs : s.script = [HostLine.cmd i, .rd .result].map (HostLine.turn s.platform.regBase h) ++ rest)
    (hf : s.freeFor h = true) (hwf : i.WellFormed = true) (hc : c = byteCount i s.len) (hv : s.addr.toNat + c ≤ 2 ^ 32)
    (hset : s.rangeSettled c) (ha : s.readsAnswered c) :
    RunsToDone 2 s rest [.writeDone h,
      .readData h ((compute i s.rangeByte c s.len s.ipsrc s.ipdst).setWidth 32)] := by
  obtain ⟨hb, -⟩ := (freeFor_iff s h).mp hf
  have hcmd := (step_free_command hs hf (decode_encode hwf)).trans (exec_settled hwf hb hc hv hset ha)
  exact ⟨_, (run_next 1 hcmd).trans (run_next 0 (step_free_read (h := h) (r := .result) rfl hf)), rfl, rfl,
    List.append_assoc _ _ _⟩

end

/-- Settles O40: the operands are written at the free window, then come the command and the read of RESULT; `chk` and `clr` are one
access each. -/
theorem pseudoInstructionsReturnChecksums : Obligations.PseudoInstructionsReturnChecksums := by
  unfold Obligations.PseudoInstructionsReturnChecksums
  refine ⟨?inet, ?iphdr, ?udp, ?chk, ?clr⟩
  case inet =>
    intro s h a n rest c hs hf hc hv hset ha
    exact runsToDone_wr (r := .addr) hs hf (by decide) <| runsToDone_wr (r := .len) rfl hf (by decide) <|
      runsToDone_cmd_rd_result (i := .csumInet) rfl hf rfl hc hv hset ha
  case iphdr =>
    intro s h a hw rest hs hf hh hv hset ha
    exact runsToDone_wr (r := .addr) hs hf (by decide) <|
      runsToDone_cmd_rd_result (i := .csumIphdr hw) (c := 4 * hw) rfl hf (decide_eq_true hh) rfl hv hset ha
  case udp =>
    intro s h a n src dst rest hs hf hv hset ha
    exact runsToDone_wr (r := .addr) hs hf (by decide) <| runsToDone_wr (r := .len) rfl hf (by decide) <|
      runsToDone_wr (r := .ipsrc) rfl hf (by decide) <| runsToDone_wr (r := .ipdst) rfl hf (by decide) <|
      runsToDone_cmd_rd_result (i := .csumUdp) (c := n.toNat) rfl hf rfl rfl hv hset ha
  case chk =>
    intro s h rest hs hf
    exact run_next 0 (step_free_read (r := .status) hs hf)
  case clr =>
    intro s h rest hs hf
    have hstep : step s = .next (({ s with script := rest, sticky := false } : State).respond (.writeDone h)) := by
      rw [step_free_write (r := .status) (rest := rest) hs hf, if_neg (by decide), State.writeSlot, writeStatus_of_bit_two rfl]
    exact run_next 0 hstep

end Sys2Proof.Machine
end

section
/-! PROOF. The arithmetic of the checksum: the fold, the sum's freedom of order and grouping, the byte swap, the reference datapath,
and what a filled field and a changed bit do to the sum (40_internet_checksum.md rules R65 to R67 and R72 to R76). -/

namespace Sys2Proof.Machine

/-! ### The fold -/

theorem halfAdd_lt_self {x : Nat} (h : 0x10000 ≤ x) : halfAdd 16 x < x := by
  unfold halfAdd
  omega

/-- Repeated half-addition ends: while the value does not fit in 16 bits, each one makes it smaller. -/
theorem exists_iterate_halfAdd_lt (x : Nat) : ∃ k, (halfAdd 16)^[k] x < 0x10000 := by
  induction x using Nat.strong_induction_on with
  | h x ih =>
    by_cases hx : x < 0x10000
    · exact ⟨0, hx⟩
    · obtain ⟨k, hk⟩ := ih _ (halfAdd_lt_self (Nat.le_of_not_lt hx))
      exact ⟨k + 1, hk⟩

theorem iterate_halfAdd_eq_fold16 {k x : Nat} (h : (halfAdd 16)^[k] x < 0x10000) : (halfAdd 16)^[k] x = fold16 x := by
  rw [← fold16_of_le (Nat.le_of_lt_succ h), iter_halfAdd_fold16]

/-- Settles O6: half-addition keeps the fold and lowers what does not fit, and a value that fits is its own fold. -/
theorem foldIsRepeatedHalfAddition : Obligations.FoldIsRepeatedHalfAddition := by
  unfold Obligations.FoldIsRepeatedHalfAddition
  intro S
  exact ⟨rfl, exists_iterate_halfAdd_lt S, fun _ => iterate_halfAdd_eq_fold16, fold16_eq_zero_iff S,
    fun h => ⟨fold16_pos h, fold16_le S, fold16_mod S⟩, fun h hm => fold16_unique h (by decide) (le_refl _) hm.symm⟩

/-! ### Order and grouping -/

/-- Chunks added one after another with `+'` to a folded sum give the fold of the whole sum. -/
theorem foldl_ocAdd_fold16 (chunks : List (List Nat)) (x : Nat) :
    chunks.foldl (fun acc c => ocAdd acc (fold16 c.sum)) (fold16 x) = fold16 (x + chunks.flatten.sum) := by
  induction chunks generalizing x with
  | nil => rfl
  | cons c cs ih =>
    rw [List.foldl_cons, ocAdd, ← fold16_add, ih, List.flatten_cons, List.sum_append, Nat.add_assoc]

/-- Settles O7: every law says that both sides fold the same sum. -/
theorem sumIsFreeOfOrderAndGrouping : Obligations.SumIsFreeOfOrderAndGrouping := by
  unfold Obligations.SumIsFreeOfOrderAndGrouping
  refine ⟨fold16_add, fun x y => ?comm, fun x y z => ?assoc, fun units chunks hperm => ?grouping⟩
  case comm => rw [ocAdd, ocAdd, Nat.add_comm]
  case assoc =>
    calc fold16 (fold16 (x + y) + z)
      _ = fold16 (x + y + z) := fold16_add_congr (fold16_self _) rfl
      _ = fold16 (x + (y + z)) := by rw [Nat.add_assoc]
      _ = fold16 (x + fold16 (y + z)) := fold16_add_congr rfl (fold16_self _).symm
  case grouping =>
    have hfold := foldl_ocAdd_fold16 chunks 0
    rw [hperm.sum_eq, ← Nat.zero_add chunks.flatten.sum, ← hfold, fold16_zero]

/-! ### The byte swap -/

theorem swap16_fold16 (S : Nat) : swap16 (BitVec.ofNat 16 (fold16 S)) = BitVec.ofNat 16 (fold16 (256 * S)) := by
  apply BitVec.eq_of_toNat_eq
  rw [swap16_toNat, toNat_ofNat16 (fold16_le _), toNat_ofNat16 (fold16_le _)]
  obtain rfl | hS := Nat.eq_zero_or_pos S
  · rfl
  · have hpos := fold16_pos hS
    have hle := fold16_le S
    have hmod := fold16_mod S
    exact (fold16_unique (by omega) (by omega) (by omega) (by omega)).symm

/-- One place further in the range is 256 times the weight: end around, from the low byte of a unit to the high byte of the next. -/
theorem fold16_offsetWeight_succ (i : Nat) (v : Byte) :
    fold16 (offsetWeight (i + 1) v) = fold16 (256 * offsetWeight i v) := by
  have hv := v.isLt
  unfold offsetWeight
  apply fold16_congr <;> split <;> split <;> omega

/-- A range after its first byte, which counts as the low byte of a unit, moved on by one place. -/
theorem fold16_rangeSum_succ (b : Nat → Byte) (n : Nat) :
    fold16 (rangeSum b (n + 1)) = fold16 (256 * ((b 0).toNat + rangeSum (fun i => b (i + 1)) n)) := by
  induction n with
  | zero => rw [rangeSum_succ, rangeSum_zero, rangeSum_zero, Nat.zero_add, Nat.add_zero, offsetWeight, if_pos rfl]
  | succ n ih =>
    rw [rangeSum_succ b (n + 1), rangeSum_succ (fun i => b (i + 1)) n, ← Nat.add_assoc, Nat.mul_add 256 _ (offsetWeight n _)]
    exact fold16_add_congr ih (fold16_offsetWeight_succ n _)

/-- Settles O9: the range moved on by one place has the fold of 256 times its sum, which is the fold with its bytes swapped. -/
theorem byteSwapLaw : Obligations.ByteSwapLaw := by
  unfold Obligations.ByteSwapLaw
  refine ⟨fun b n => ?_, swap16_fold16⟩
  have hmoved := fold16_rangeSum_succ (fun i => if i = 0 then 0x00#8 else b (i - 1)) n
  rw [ocsum, ocsum, swap16_fold16, hmoved]
  simp

/-! ### The reference datapath -/

theorem foldAcc_accChunks (acc : BitVec 64) (bs : List Byte) :
    foldAcc (accChunks acc bs) = BitVec.ofNat 16 (fold16 (acc.toNat + listSum bs)) := by
  rw [foldAcc_eq, fold16_accChunks]

theorem fold16_eac_accByte (b : Byte) (x : Nat) : fold16 ((eac 0#64 (accByte b)).toNat + x) = fold16 (b.toNat + x) := by
  have hb := b.isLt
  refine fold16_add_congr ?_ rfl
  rw [fold16_eac, accByte, BitVec.toNat_setWidth, Nat.mod_eq_of_lt (by omega), BitVec.toNat_ofNat, Nat.zero_mod, Nat.zero_add]

/-- Settles O8: chunks and tail add up to the range's sum; at an odd start they add up the range moved by one place, and the swap
moves it back. -/
theorem referenceDatapathGivesSum : Obligations.ReferenceDatapathGivesSum := by
  unfold Obligations.ReferenceDatapathGivesSum
  intro a bs
  unfold refdp
  split
  · cases bs with
    | nil => rfl
    | cons b rest =>
      have hmoved := fold16_rangeSum_succ (fun i => (b :: rest).getD i 0x00#8) rest.length
      rw [ocsum, List.length_cons, hmoved, ← swap16_fold16]
      exact congrArg swap16 ((foldAcc_accChunks _ rest).trans (congrArg _ (fold16_eac_accByte b _)))
  · rw [foldAcc_accChunks, BitVec.toNat_ofNat, Nat.zero_mod, Nat.zero_add]
    rfl

/-! ### A filled field, and a changed byte -/

/-- Settles O10: what is written into the field is what the sum lacks to 0xFFFF. -/
theorem filledChecksumVerifies : Obligations.FilledChecksumVerifies := by
  unfold Obligations.FilledChecksumVerifies
  intro b n j hj h0 h1 b' hsame hfield
  have hsum : fold16 (rangeSum b' n) = 0xFFFF := by
    rw [rangeSum_fill hj h0 h1 hsame, hfield]
    exact fold16_complete _ _ (iphdrValue_toNat b n)
  have hinet : inetValue b' n = 0xFFFF#16 := by rw [inetValue, ocsum, hsum]
  exact ⟨hinet, congrArg complement16 hinet⟩

theorem iphdrValue_eq_iff (b b' : Nat → Byte) (n : Nat) : iphdrValue b' n = iphdrValue b n ↔ inetValue b' n = inetValue b n :=
  BitVec.xor_left_inj 0xFFFF#16

/-- The weight of a byte determines the byte, though 0 and 0xFFFF fold alike: no byte weighs 0xFFFF. -/
theorem byte_eq_of_offsetWeight_mod_eq {i : Nat} {v v' : Byte} (h : offsetWeight i v' % 0xFFFF = offsetWeight i v % 0xFFFF) : v' = v := by
  have hv := v.isLt
  have hv' := v'.isLt
  apply BitVec.eq_of_toNat_eq
  unfold offsetWeight at h
  split at h <;> omega

theorem inetValue_ne_of_byte_ne {b b' : Nat → Byte} {n i : Nat} (hi : i < n) (hsame : ∀ k, k ≠ i → b' k = b k)
    (hne : b' i ≠ b i) : inetValue b' n ≠ inetValue b n := by
  intro heq
  have hfold : fold16 (rangeSum b' n) = fold16 (rangeSum b n) := by
    rw [← ocsum_toNat, ← ocsum_toNat]
    exact congrArg BitVec.toNat heq
  have hupdate := rangeSum_update hi hsame
  have hmod := fold16_mod (rangeSum b n)
  have hmod' := fold16_mod (rangeSum b' n)
  exact hne (byte_eq_of_offsetWeight_mod_eq (i := i) (by omega))

theorem xor_bit_ne {j : Nat} (v : Byte) (hj : j < 8) : v ^^^ (0x01#8 <<< j) ≠ v := by
  intro h
  have hbit := congrArg (·.getLsbD j) h
  simp [hj] at hbit

/-- Settles O11: a changed bit is a changed byte, and the complement hides no change. -/
theorem singleBitChangeIsSeen : Obligations.SingleBitChangeIsSeen := by
  unfold Obligations.SingleBitChangeIsSeen
  intro b b' n i j hi hj hsame hbit
  have hinet := inetValue_ne_of_byte_ne hi hsame (hbit ▸ xor_bit_ne (b i) hj)
  exact ⟨hinet, fun h => hinet ((iphdrValue_eq_iff b b' n).mp h)⟩

end Sys2Proof.Machine
end

section
/-! PROOF. Commands whose outcome no read decides, and a command whose reads are steps of their own (40_internet_checksum.md rules
R68 to R70; 60_exceptions.md rules R103, R104 and R109; 70_reset_and_hazards.md rule R131). -/

namespace Sys2Proof.Machine

/-! ### An empty range -/

/-- Over no byte the range is valid, settled and answered, whatever ADDR, the memory and the draws are. -/
theorem exec_empty {i : Instr} {s : State} (hwf : i.WellFormed = true) (hb : s.busy = false) (hn : byteCount i s.len = 0) :
    exec i s = .next (s.completed (compute i s.rangeByte 0 s.len s.ipsrc s.ipdst) 0) :=
  exec_settled hwf hb hn.symm s.addr.isLt.le (fun _ h => absurd h (Nat.not_lt_zero _)) fun _ h => absurd h (Nat.not_lt_zero _)

theorem inetValue_empty (b : Nat → Byte) : inetValue b 0 = 0x0000#16 := by
  rw [inetValue, ocsum, rangeSum_zero, fold16_zero]

theorem iphdrValue_empty (b : Nat → Byte) : iphdrValue b 0 = 0xFFFF#16 :=
  congrArg complement16 (inetValue_empty b)

/-- Settles O20: both byte counts are zero, no draw and no free value is used, and the sum of no units is 0. -/
theorem emptyRangeCompletesWithoutReads : Obligations.EmptyRangeCompletesWithoutReads := by
  unfold Obligations.EmptyRangeCompletesWithoutReads
  refine ⟨fun s hb hlen => ?inet, fun s hb => ?iphdr⟩
  case inet =>
    have hcount : byteCount .csumInet s.len = 0 := if_neg (not_lt.mpr hlen)
    rw [exec_empty rfl hb hcount, compute, inetValue_empty]
    rfl
  case iphdr =>
    rw [exec_empty rfl hb rfl, compute, iphdrValue_empty]
    rfl

/-! ### A command in steps of its own -/

/-- The engine's steps beyond the last that its command can take change nothing. -/
theorem engineTurns_of_turnsLeft_le {s : State} {k : Nat} (h : s.turnsLeft ≤ k) : engineTurns k s = finishCommand s := by
  have hfixed : engineTurn (finishCommand s) = finishCommand s := by
    unfold finishCommand State.turnsLeft
    cases hp : s.phase with
    | idle => exact engineTurn_idle hp
    | exec e => exact engineTurns_settle _ s e hp (le_refl _)
  rw [← Nat.add_sub_cancel' h, engineTurns_add]
  exact engineTurns_fixed hfixed _

theorem turnsLeft_acceptCommand_le (w : Word) (n : Option Nat) (s : State) :
    (acceptCommand w n s).turnsLeft ≤ n.getD 0 + 1 := by
  simp only [acceptCommand, State.turnsLeft, State.setPhase_phase, latchCommand]
  split <;> simp

/-- A word issued in steps of its own, nobody else acting, ends where its frame run whole ends. -/
theorem run_cmd_in_steps {s : State} {h k : Nat} {w : Word}
    (hs : s.script = [.access { host := h, addr := s.platform.regBase, width := .word, op := .write w } false])
    (hb : s.busy = false) (hheld : s.held = []) (hk : (wordByteCount w s.len).getD 0 + 2 ≤ k) :
    Sys2Proof.core.run k s = .next (runFrame w (wordByteCount w s.len) { s with script := [], master := h }) := by
  obtain ⟨m, rfl⟩ : ∃ m, k = m + 1 := ⟨k - 1, by omega⟩
  set accepted := acceptCommand w (wordByteCount w s.len) { s with script := [], master := h }
  have hstep : step s = .next accepted := step_free_cmd hs ((freeFor_iff s h).mpr ⟨hb, by rw [hheld]; rfl⟩)
  have hleft : accepted.turnsLeft ≤ m := (turnsLeft_acceptCommand_le _ _ _).trans (by omega)
  calc Sys2Proof.core.run (m + 1) s
    _ = Sys2Proof.core.run m accepted := run_next m hstep
    _ = .next (engineTurns m accepted) := run_quiet_turns m accepted rfl (not_resetAsserted_of_not_busy (s := s) hb) hheld
    _ = .next (finishCommand accepted) := by rw [engineTurns_of_turnsLeft_le hleft]
    _ = .next (runFrame w (wordByteCount w s.len) { s with script := [], master := h }) := by
      rw [runFrame_free (s := { s with script := [], master := h }) w _ hb]

theorem wordByteCount_of_command {w : Word} {i : Instr} (len : Word) (hd : decode w = .command i) :
    wordByteCount w len = some (byteCount i len) := by
  rw [wordByteCount, hd]

theorem wordByteCount_of_illegal {w : Word} {why : IllegalWord} (len : Word) (hd : decode w = .illegal why) :
    wordByteCount w len = none := by
  rw [wordByteCount, hd]

theorem exec_eq_runFrame_of_decode {w : Word} {i : Instr} (s : State) (hd : decode w = .command i) :
    exec i s = .next (runFrame w (wordByteCount w s.len) s) := by
  rw [exec_eq_runFrame, encode_of_decode hd, wordByteCount_of_command s.len hd]

/-- Settles O31: the frame run in steps is `exec` of the command that the word encodes, or the ILLEGAL_CMD end of an illegal word. -/
theorem commandInStepsEndsAsExec : Obligations.CommandInStepsEndsAsExec := by
  unfold Obligations.CommandInStepsEndsAsExec
  refine ⟨fun s h w i k hs hb hheld hd hk => ?command, fun s h w why k hs hb hheld hd hk => ?illegal⟩
  case command =>
    have hcount := wordByteCount_of_command s.len hd
    rw [run_cmd_in_steps hs hb hheld (by rw [hcount]; exact hk)]
    exact (exec_eq_runFrame_of_decode _ hd).symm
  case illegal =>
    have hcount := wordByteCount_of_illegal s.len hd
    rw [run_cmd_in_steps hs hb hheld (by rw [hcount]; exact hk), hcount]
    exact congrArg _ (runFrame_illegal hb)

end Sys2Proof.Machine
end

section
/-! PROOF. The laws of the UDP checksum: its two layers, the values it can take, and what a filled field and a flipped bit do to it
(41_udp_pseudo_header.md rules R81, R82, R85 and R86). -/

namespace Sys2Proof.Machine

/-! ### The pseudo-header -/

theorem pseudo_eq (src dst : Word) (lp : Nat) :
    pseudo src dst lp = src.toNat / 65536 + src.toNat % 65536 + (dst.toNat / 65536 + dst.toNat % 65536) + 17 + lp := by
  rw [pseudo, udpSum, udpSum, protoUdp]

theorem pseudo_pos (src dst : Word) (lp : Nat) : 0 < pseudo src dst lp := by
  rw [pseudo_eq]
  omega

/-- Modulo 0xFFFF the two halves of an address add up to the address. -/
theorem pseudo_mod (src dst : Word) (lp : Nat) : pseudo src dst lp % 0xFFFF = (src.toNat + dst.toNat + 17 + lp) % 0xFFFF := by
  rw [pseudo_eq]
  omega

/-! ### The two layers, and the values -/

/-- Settles O14: folding the layers before adding them changes nothing. -/
theorem udpValueIsSumOfTwoLayers : Obligations.UdpValueIsSumOfTwoLayers := by
  unfold Obligations.UdpValueIsSumOfTwoLayers
  intro b n src dst opLen
  rw [udpValue, ocAdd, ocsum_toNat, ← fold16_add, pseudo_eq, lengthWord]

theorem udpValue_toNat_lt (b : Nat → Byte) (n : Nat) (src dst len : Word) : (udpValue b n src dst len).toNat < 0xFFFF := by
  have hfold : 0 < fold16 (rangeSum b n + pseudo src dst (lengthWord len)) :=
    fold16_pos (Nat.add_pos_right _ (pseudo_pos _ _ _))
  rw [udpValue_toNat]
  omega

/-- The value is what the datagram, the addresses, the protocol number and the length lack to a multiple of 0xFFFF. -/
theorem udpValue_completes_sum (b : Nat → Byte) (n : Nat) (src dst len : Word) : ((udpValue b n src dst len).toNat +
    (rangeSum b n + (src.toNat + dst.toNat + 17 + lengthWord len))) % 0xFFFF = 0 := by
  have hle := fold16_le (rangeSum b n + pseudo src dst (lengthWord len))
  have hfold := fold16_mod (rangeSum b n + pseudo src dst (lengthWord len))
  have hpseudo := pseudo_mod src dst (lengthWord len)
  rw [udpValue_toNat]
  omega

/-- CSUM_UDP sees the addresses through their sum modulo 0xFFFF only. -/
theorem udpValue_congr_addresses {src src' dst dst' : Word} (b : Nat → Byte) (n : Nat) (len : Word)
    (h : (src.toNat + dst.toNat) % 0xFFFF = (src'.toNat + dst'.toNat) % 0xFFFF) :
    udpValue b n src dst len = udpValue b n src' dst' len := by
  have hlt := udpValue_toNat_lt b n src dst len
  have hlt' := udpValue_toNat_lt b n src' dst' len
  have hsum := udpValue_completes_sum b n src dst len
  have hsum' := udpValue_completes_sum b n src' dst' len
  apply BitVec.eq_of_toNat_eq
  omega

/-- Settles O15: the sum holds the protocol number, so it does not fold to 0; and an address of all ones is a multiple of 0xFFFF. -/
theorem udpValueIsNeverAllOnes : Obligations.UdpValueIsNeverAllOnes := by
  unfold Obligations.UdpValueIsNeverAllOnes
  refine ⟨fun b n src dst opLen h => ?never, fun b n dst opLen => ?source, fun b n src opLen => ?destination⟩
  case never =>
    have hones : (udpValue b n src dst opLen).toNat = 0xFFFF := congrArg BitVec.toNat h
    exact (udpValue_toNat_lt b n src dst opLen).ne hones
  case source => exact udpValue_congr_addresses b n opLen (by simp only [BitVec.toNat_ofNat]; omega)
  case destination => exact udpValue_congr_addresses b n opLen (by simp only [BitVec.toNat_ofNat]; omega)

/-! ### A filled field -/

/-- A datagram verifies exactly when what CSUM_UDP adds up is a multiple of 0xFFFF. -/
theorem udpValue_eq_zero_iff (b : Nat → Byte) (n : Nat) (src dst len : Word) : udpValue b n src dst len = 0x0000#16 ↔
    (rangeSum b n + (src.toNat + dst.toNat + 17 + lengthWord len)) % 0xFFFF = 0 := by
  have hlt := udpValue_toNat_lt b n src dst len
  have hsum := udpValue_completes_sum b n src dst len
  rw [← BitVec.toNat_inj, BitVec.toNat_ofNat]
  omega

/-- Settles O12: what is written into the field is, modulo 0xFFFF, what the sum lacks to a multiple of 0xFFFF. -/
theorem filledDatagramVerifies : Obligations.FilledDatagramVerifies := by
  unfold Obligations.FilledDatagramVerifies
  intro b n src dst opLen hn h6 h7 b' hsame hfield
  have hwritten : (networkHalf (b' 6) (b' 7)).toNat % 0xFFFF = (udpValue b n src dst opLen).toNat % 0xFFFF := by
    obtain heq | ⟨hzero, hones⟩ := hfield
    · rw [heq]
    · rw [hzero, hones]
      rfl
  have hsum : rangeSum b' n = rangeSum b n + (networkHalf (b' 6) (b' 7)).toNat := rangeSum_fill (j := 3) hn h6 h7 hsame
  have hlacks := udpValue_completes_sum b n src dst opLen
  rw [udpValue_eq_zero_iff]
  omega

/-! ### A flipped bit -/

theorem byte_eq_of_rangeSum_mod_eq {b b' : Nat → Byte} {n i : Nat} (hi : i < n) (hsame : ∀ k, k ≠ i → b' k = b k)
    (h : rangeSum b' n % 0xFFFF = rangeSum b n % 0xFFFF) : b' i = b i := by
  have hupdate := rangeSum_update hi hsame
  exact byte_eq_of_offsetWeight_mod_eq (i := i) (by omega)

/-- Flipping the bit `j` of a number adds its weight or takes it away. -/
theorem xor_two_pow_cases (j : Nat) : ∀ n : Nat, n ^^^ 2 ^ j = n + 2 ^ j ∨ (n ^^^ 2 ^ j) + 2 ^ j = n := by
  induction j with
  | zero =>
    intro n
    have hlow : (n ^^^ 1) % 2 = (n + 1) % 2 := Nat.xor_mod_two_eq
    have hhigh : (n ^^^ 1) / 2 = n / 2 := by rw [Nat.xor_div_two, Nat.div_eq_of_lt Nat.one_lt_two, Nat.xor_zero]
    rw [Nat.pow_zero]
    omega
  | succ j ih =>
    intro n
    have hlow : (n ^^^ 2 ^ j * 2) % 2 = (n + 2 ^ j * 2) % 2 := Nat.xor_mod_two_eq
    have hhigh : (n ^^^ 2 ^ j * 2) / 2 = n / 2 ^^^ 2 ^ j := by rw [Nat.xor_div_two, Nat.mul_div_cancel _ Nat.two_pos]
    have hflip := ih (n / 2)
    rw [Nat.pow_succ]
    omega

theorem two_pow_mod_ne_zero : ∀ j < 32, 2 ^ j % 0xFFFF ≠ 0 := by decide

/-- A flipped bit of an address moves the address modulo 0xFFFF: no power of two is a multiple of 0xFFFF. -/
theorem toNat_xor_bit_mod_ne (a : Word) {j : Nat} (hj : j < 32) :
    (a ^^^ (0x00000001#32 <<< j)).toNat % 0xFFFF ≠ a.toNat % 0xFFFF := by
  have hweight := two_pow_mod_ne_zero j hj
  have hflip := xor_two_pow_cases j a.toNat
  rw [← BitVec.twoPow_eq, BitVec.toNat_xor, BitVec.toNat_twoPow_of_lt hj]
  omega

/-- Settles O13: a flipped bit moves what is added up modulo 0xFFFF, so it is no multiple of 0xFFFF any more. -/
theorem flippedDatagramBitIsSeen : Obligations.FlippedDatagramBitIsSeen := by
  unfold Obligations.FlippedDatagramBitIsSeen
  intro b n src dst opLen hverifies
  rw [udpValue_eq_zero_iff] at hverifies
  refine ⟨fun b' i j hi hj hsame hbit h => ?datagram, fun j hj => ⟨fun h => ?source, fun h => ?destination⟩⟩ <;>
    rw [udpValue_eq_zero_iff] at h
  case datagram => exact xor_bit_ne (b i) hj (hbit ▸ byte_eq_of_rangeSum_mod_eq hi hsame (by omega))
  case source =>
    have hmoved := toNat_xor_bit_mod_ne src hj
    omega
  case destination =>
    have hmoved := toNat_xor_bit_mod_ne dst hj
    omega

end Sys2Proof.Machine
end

section
/-! PROOF. The register window as its hosts see it: reads and writes of the slots, the accesses that are held or refused, the grant of
a held access, and runs within the contract (42_host_register_access.md rules R87 to R99; 60_exceptions.md rule R109;
70_reset_and_hazards.md rule R121). -/

namespace Sys2Proof.Machine

/-! ### Reads of the slots -/

theorem statusWord_toNat (done err sticky : Bool) (errcode : BitVec 4) :
    (statusWord done err sticky errcode).toNat = 16 * errcode.toNat + 4 * sticky.toNat + 2 * err.toNat + done.toNat := by
  have hbit : ∀ (n : Nat) (b : Bool), n <<< 1 ||| b.toNat = 2 * n + b.toNat := fun n b => by
    rw [← Nat.shiftLeft_add_eq_or_of_lt b.toNat_lt, Nat.shiftLeft_eq]
    omega
  have hzero : ∀ n : Nat, n <<< 1 ||| (0#1).toNat = 2 * n := fun n => hbit n false
  have hcode : (0#24).toNat <<< 4 ||| errcode.toNat = errcode.toNat := Nat.zero_or _
  simp only [statusWord, BitVec.toNat_append, BitVec.toNat_ofBool, hbit, hzero, hcode]
  omega

/-- Settles O34: a read at a free window answers with the slot's value, and is told apart by the slot alone. -/
theorem hostReadsReturnSlotValues : Obligations.HostReadsReturnSlotValues := by
  unfold Obligations.HostReadsReturnSlotValues
  intro s h alone rest r hs hf
  refine ⟨s.readSlot r, step_free_read hs hf, ?cmd, ?addr, ?len, ?ipsrc, ?ipdst, ?result, ?status, ?reserved⟩ <;> rintro rfl
  case result => exact ⟨rfl, BitVec.toNat_setWidth_of_le (by decide)⟩
  case status => exact ⟨rfl, statusWord_toNat _ _ _ _⟩
  case cmd | addr | len | ipsrc | ipdst | reserved => exact ⟨rfl, rfl⟩

/-! ### Writes of the slots -/

theorem step_free_write_register {s : State} {h : Nat} {r : Slot} {v : Word} {alone : Bool} {rest : List Turn} (hr : r ≠ .cmd)
    (hs : s.script = .access { host := h, addr := s.platform.regBase + r.offset, width := .word, op := .write v } alone :: rest)
    (hf : s.freeFor h = true) :
    step s = .next (({ s with script := rest }.writeSlot v r).respond (.writeDone h)) :=
  (step_free_write hs hf).trans (if_neg hr)

/-- Settles O35: each of the four offsets is that of one operand slot. -/
theorem hostWritesSetOperands : Obligations.HostWritesSetOperands := by
  unfold Obligations.HostWritesSetOperands
  intro s h off v alone rest hs hf
  refine ⟨?addr, ?len, ?ipsrc, ?ipdst⟩ <;> rintro rfl
  case addr => exact step_free_write_register (r := .addr) (by decide) hs hf
  case len => exact step_free_write_register (r := .len) (by decide) hs hf
  case ipsrc => exact step_free_write_register (r := .ipsrc) (by decide) hs hf
  case ipdst => exact step_free_write_register (r := .ipdst) (by decide) hs hf

theorem getLsbD_two (v : Word) : v.getLsbD 2 = decide (v.toNat / 4 % 2 = 1) :=
  Nat.testBit_eq_decide_div_mod_eq

theorem writeStatus_of_not_bit_two {v : Word} {s : State} (hv : v.getLsbD 2 = false) : s.writeStatus v = s := by
  rw [State.writeStatus, hv, Bool.not_false, Bool.and_true]

/-- Settles O36: RESULT and the reserved slot are written to no effect, and of a value written to STATUS bit 2 alone counts. -/
theorem hostWritesOfOutcomeRegisters : Obligations.HostWritesOfOutcomeRegisters := by
  unfold Obligations.HostWritesOfOutcomeRegisters
  intro s h off v alone rest hs hf
  refine ⟨?ignored, ?clear, ?keep⟩
  case ignored =>
    rintro (rfl | rfl)
    · exact step_free_write_register (r := .result) (by decide) hs hf
    · exact step_free_write_register (r := .reserved) (by decide) hs hf
  case clear =>
    rintro rfl hv
    rw [step_free_write_register (r := .status) (by decide) hs hf, State.writeSlot,
      writeStatus_of_bit_two ((getLsbD_two v).trans (decide_eq_true hv))]
    rfl
  case keep =>
    rintro rfl hv
    rw [step_free_write_register (r := .status) (by decide) hs hf, State.writeSlot,
      writeStatus_of_not_bit_two ((getLsbD_two v).trans (decide_eq_false (by omega)))]
    rfl

/-! ### An access that arrives -/

/-- Settles O24: every command runs in the one frame, which at a busy window holds its CMD write. -/
theorem commandIsHeldWhileWindowIsBusy : Obligations.CommandIsHeldWhileWindowIsBusy := by
  unfold Obligations.CommandIsHeldWhileWindowIsBusy
  intro i s hb
  exact (exec_eq_runFrame i s).trans (congrArg _ (runFrame_busy (encode i) _ hb))

theorem target_of_word {base : Nat} {a : Access} {r : Slot} (hw : a.width = .word) (ha : a.addr = base + r.offset) :
    a.target base = .slot r := by
  obtain ⟨host, addr, width, op⟩ := a
  subst hw ha
  exact target_slot base host r op

theorem target_badShape {base : Nat} {a : Access} (hlow : base < a.addr + a.width.bytes) (hhigh : a.addr < base + 32)
    (h : a.width ≠ .word ∨ a.addr < base ∨ (a.addr - base) % 4 ≠ 0) : a.target base = .badShape := by
  have htouches : ¬(a.addr + a.width.bytes ≤ base ∨ base + 32 ≤ a.addr) := by omega
  rw [Access.target, if_neg htouches]
  split
  · rename_i hshape
    obtain ⟨hword, hstart⟩ := hshape
    have hmisaligned : (a.addr - base) % 4 ≠ 0 := (h.resolve_left (not_not_intro hword)).resolve_left (not_lt.mpr hstart)
    rw [slotAt_none hmisaligned]
  · rfl

theorem arriveAccess_badShape {a : Access} {s : State} (alone : Bool) (ht : a.target s.platform.regBase = .badShape) :
    arriveAccess a alone s = .refused .accessShape := by
  simp only [arriveAccess, ht]

theorem arriveAccess_behind {a : Access} {alone : Bool} {s : State} {r : Slot} {x : Held}
    (ht : a.target s.platform.regBase = .slot r) (hx : x ∈ s.held) (hhost : x.access.host = a.host) :
    arriveAccess a alone s = .next (s.holdAccess { access := a, alone := alone }) := by
  have hany : s.held.any (fun h => h.access.host == a.host) = true := List.any_eq_true.mpr ⟨x, hx, by simpa using hhost⟩
  simp [arriveAccess, ht, hany]

/-- Settles O37: such an access reaches no slot, and touches the window. -/
theorem misshapenAccessIsRefused : Obligations.MisshapenAccessIsRefused := by
  unfold Obligations.MisshapenAccessIsRefused
  intro s a alone rest hs hlow hhigh hshape
  exact (step_of_script hs).trans (arriveAccess_badShape alone (target_badShape hlow hhigh hshape))

/-- Settles O53: the access that its host has held is enough to hold it, whether or not the window is busy. -/
theorem accessIsHeldBehindItsHostsOwn : Obligations.AccessIsHeldBehindItsHostsOwn := by
  unfold Obligations.AccessIsHeldBehindItsHostsOwn
  intro s a alone rest r x hs hw ha hx hhost
  exact (step_of_script hs).trans (arriveAccess_behind (s := { s with script := rest }) (target_of_word hw ha) hx hhost)

/-! ### The held accesses -/

theorem performAccess_env {a : Access} {alone : Bool} {s t : State} (h : performAccess a alone s = .next t)
    (hb : s.busy = false) : t.platform = s.platform ∧ t.script = s.script ∧ t.held = s.held := by
  obtain rfl | ⟨r, -, -, rfl⟩ | ⟨v, r, -, -, -, rfl⟩ | ⟨w, -, -, hi⟩ := performAccess_cases h
  · exact ⟨rfl, rfl, rfl⟩
  · exact ⟨rfl, rfl, rfl⟩
  · cases r <;> exact ⟨rfl, rfl, rfl⟩
  · obtain ⟨-, -, hplatform, hscript, -, -, hheld⟩ := (issueCommand_frame hi hb).env
    exact ⟨hplatform, hscript, hheld⟩

/-- A step takes one turn off the script, and of the held accesses it takes some away at a free window, or keeps all and puts at most
the access of its own turn behind them. -/
theorem step_held_cases {s t : State} (h : step s = .next t) :
    t.platform = s.platform ∧ t.script = s.script.tail ∧
    ((s.busy = false ∧ t.held.Sublist s.held) ∨ t.held = s.held ∨
      ∃ a alone r, a.target s.platform.regBase = .slot r ∧ t.held = s.held ++ [{ access := a, alone := alone }]) := by
  obtain ⟨rest, hrest, hcase⟩ := step_cases h
  have htail : rest = s.script.tail := by
    obtain ⟨hnil, rfl⟩ | ⟨turn, hcons⟩ := hrest
    · rw [hnil, List.tail_nil]
    · rw [hcons, List.tail_cons]
  obtain ⟨rfl, -⟩ | ⟨-, rfl⟩ | ⟨a, alone, -, r, ht, rfl⟩ | ⟨hb, a, alone, held, hfrom, hp⟩ | ⟨m, d, rfl, -⟩ |
    ⟨host, a, v, -, rfl⟩ | ⟨-, rfl⟩ | ⟨-, -, rfl⟩ := hcase
  · exact ⟨rfl, htail, .inr (.inl rfl)⟩
  · obtain ⟨-, -, hplatform, hscript, -, -, hheld⟩ := (engineTurn_frame { s with script := rest }).env
    exact ⟨hplatform, hscript.trans htail, .inr (.inl hheld)⟩
  · exact ⟨rfl, htail, .inr (.inr ⟨a, alone, r, ht, rfl⟩)⟩
  · obtain ⟨hplatform, hscript, hheld⟩ := performAccess_env (s := { s with script := rest, held := held }) hp hb
    have hsub : held.Sublist s.held := by
      obtain ⟨-, rfl⟩ | ⟨-, hsub⟩ := hfrom
      · exact .refl _
      · exact hsub
    exact ⟨hplatform, hscript.trans htail, .inl ⟨hb, hheld ▸ hsub⟩⟩
  · exact ⟨rfl, htail, .inr (.inl rfl)⟩
  · exact ⟨rfl, htail, .inr (.inl rfl)⟩
  · obtain ⟨-, -, hplatform, hscript, hheld⟩ := clearEngine_env { s with script := rest }
    exact ⟨hplatform, hscript.trans htail, .inr (.inl hheld)⟩
  · obtain ⟨-, -, hplatform, hscript, hheld⟩ := releaseReset_env { s with script := rest }
    exact ⟨hplatform, hscript.trans htail, .inr (.inl hheld)⟩

/-- Settles O38: a busy window holds what arrives, and only at a free window can a step take a held access away. -/
theorem accessesAreHeldWhileBusy : Obligations.AccessesAreHeldWhileBusy := by
  unfold Obligations.AccessesAreHeldWhileBusy
  refine ⟨fun s a alone rest r hs hw ha hb => ?arrive, fun s t hb h => ?kept⟩
  case arrive =>
    exact (step_of_script hs).trans (arriveAccess_busy (s := { s with script := rest }) (target_of_word hw ha) hb)
  case kept =>
    obtain ⟨-, -, ⟨hfree, -⟩ | hsame | ⟨a, alone, r, -, hbehind⟩⟩ := step_held_cases h
    · rw [hb] at hfree
      cases hfree
    · exact hsame ▸ List.prefix_refl _
    · exact hbehind ▸ List.prefix_append _ _

/-- The grant performs the oldest held access of the host it falls to, and takes that access alone out of the list. -/
theorem grantHeld_free {k : Nat} {s : State} {x : Held} (hb : s.busy = false) (hx : s.held[k % s.held.length]? = some x) :
    ∃ before y after, s.held = before ++ y :: after ∧ y.access.host = x.access.host ∧
      (∀ z ∈ before, z.access.host ≠ x.access.host) ∧
      grantHeld k s = performAccess y.access y.alone { s with held := before ++ after } := by
  obtain ⟨y, before, after, hbefore, hy, hsplit, herase⟩ :=
    List.exists_of_eraseP (p := fun h => h.access.host == x.access.host) (List.mem_of_getElem? hx) (beq_self_eq_true _)
  have hfind : s.held.find? (fun h => h.access.host == x.access.host) = some y :=
    List.find?_eq_some_iff_append.mpr ⟨hy, before, after, hsplit, fun z hz => by simpa using hbefore z hz⟩
  refine ⟨before, y, after, hsplit, eq_of_beq hy, fun z hz => by simpa using hbefore z hz, ?_⟩
  rw [grantHeld, if_neg (by simp [hb]), hx]
  simp only [hfind, herase]

/-- Settles O39: the turn grants a free window to the host of the access it points at. -/
theorem grantPerformsOldestOfItsHost : Obligations.GrantPerformsOldestOfItsHost := by
  unfold Obligations.GrantPerformsOldestOfItsHost
  intro s k rest x hs hb hx
  obtain ⟨before, y, after, hsplit, hy, hbefore, hgrant⟩ := grantHeld_free (s := { s with script := rest }) hb hx
  exact ⟨before, y, after, hsplit, hy, hbefore, (step_of_script hs).trans hgrant⟩

/-! ### Runs within the contract -/

theorem issueCommand_next (w : Word) (alone : Bool) (s : State) : ∃ t, issueCommand w alone s = .next t := by
  cases alone with
  | false => exact ⟨_, rfl⟩
  | true =>
    cases hd : decode w with
    | command i => exact ⟨_, (issueCommand_of_command s hd).trans (exec_eq_runFrame i s)⟩
    | illegal why => exact ⟨_, issueCommand_of_illegal s hd⟩

theorem performAccess_next {a : Access} {s : State} (alone : Bool) (ht : a.target s.platform.regBase ≠ .badShape) :
    ∃ t, performAccess a alone s = .next t := by
  unfold performAccess
  split
  · exact ⟨s, rfl⟩
  · exact absurd ‹_› ht
  · split
    · exact ⟨_, rfl⟩
    · split
      · exact issueCommand_next _ alone _
      · exact ⟨_, rfl⟩

theorem arriveAccess_next {a : Access} {s : State} (alone : Bool) (ht : a.target s.platform.regBase ≠ .badShape) :
    ∃ t, arriveAccess a alone s = .next t := by
  unfold arriveAccess
  split
  · exact ⟨s, rfl⟩
  · exact absurd ‹_› ht
  · split
    · exact ⟨_, rfl⟩
    · exact performAccess_next alone ht

theorem grantHeld_next {s : State} (k : Nat) (hheld : ∀ x ∈ s.held, x.access.target s.platform.regBase ≠ .badShape) :
    ∃ t, grantHeld k s = .next t := by
  unfold grantHeld
  split
  · exact ⟨s, rfl⟩
  · split
    · exact ⟨s, rfl⟩
    · split
      · exact ⟨s, rfl⟩
      · rename_i y hy
        exact performAccess_next y.alone (hheld y (List.mem_of_find?_eq_some hy))

theorem takeTurn_next {turn : Turn} {s : State} (hturn : turn.inContract s.platform.regBase = true)
    (hheld : ∀ x ∈ s.held, x.access.target s.platform.regBase ≠ .badShape) : ∃ t, takeTurn turn s = .next t := by
  cases turn with
  | access a alone => exact arriveAccess_next alone (by simpa [Turn.inContract] using hturn)
  | disordered host => cases hturn
  | grant k => exact grantHeld_next k hheld
  | engine =>
    rw [takeTurn]
    split <;> exact ⟨_, rfl⟩
  | store host a bs => exact ⟨_, if_pos hturn⟩
  | storeCached host a bs => exact ⟨_, if_pos hturn⟩
  | clean host a n => exact ⟨_, if_pos hturn⟩
  | load16 host a => exact ⟨_, if_pos hturn⟩
  | masterWrite a v => exact ⟨_, rfl⟩
  | resetAssert => exact ⟨_, rfl⟩
  | resetRelease => exact ⟨_, rfl⟩

theorem quietTurn_next {s : State} (hheld : ∀ x ∈ s.held, x.access.target s.platform.regBase ≠ .badShape) :
    ∃ t, quietTurn s = .next t := by
  unfold quietTurn
  split
  · exact ⟨s, rfl⟩
  · split
    · exact ⟨_, rfl⟩
    · exact grantHeld_next 0 hheld

theorem State.inContract.step_next {s : State} (h : s.inContract) : ∃ t, step s = .next t := by
  obtain ⟨hscript, hheld⟩ := h
  cases hs : s.script with
  | nil =>
    rw [step, hs]
    exact quietTurn_next hheld
  | cons turn rest =>
    rw [step_of_script hs]
    exact takeTurn_next (hscript turn (hs ▸ List.mem_cons_self)) hheld

/-- The turns left are turns that were written down, and an access comes to be held only where it reaches a slot. -/
theorem State.inContract.step_keeps {s t : State} (h : s.inContract) (hstep : step s = .next t) : t.inContract := by
  obtain ⟨hscript, hheld⟩ := h
  obtain ⟨hplatform, htail, hcase⟩ := step_held_cases hstep
  rw [State.inContract, hplatform, htail]
  refine ⟨fun turn hturn => hscript turn (List.mem_of_mem_tail hturn), fun x hx => ?_⟩
  obtain ⟨-, hsub⟩ | hsame | ⟨a, alone, r, ht, hbehind⟩ := hcase
  · exact hheld x (hsub.subset hx)
  · exact hheld x (hsame ▸ hx)
  · rw [hbehind, List.mem_append, List.mem_singleton] at hx
    obtain hold | rfl := hx
    · exact hheld x hold
    · rw [ht]
      nofun

theorem State.inContract.run {k : Nat} : ∀ {s : State}, s.inContract → ∃ t, Sys2Proof.core.run k s = .next t ∧ t.inContract := by
  induction k with
  | zero => exact fun h => ⟨_, rfl, h⟩
  | succ k ih =>
    intro s h
    obtain ⟨s', hstep⟩ := h.step_next
    obtain ⟨t, hrun, ht⟩ := ih (h.step_keeps hstep)
    exact ⟨t, (run_next k hstep).trans hrun, ht⟩

/-- Settles O48: within the contract every step goes on, and leaves a machine within the contract. -/
theorem contractKeepingRunNeverStops : Obligations.ContractKeepingRunNeverStops := by
  unfold Obligations.ContractKeepingRunNeverStops
  intro k s h
  obtain ⟨t, hrun, ht⟩ := h.run (k := k)
  refine ⟨⟨t, hrun⟩, fun t' hrun' => ?_⟩
  rw [hrun] at hrun'
  cases hrun'
  exact ht

end Sys2Proof.Machine
end

section
/-! PROOF. How a command ends whose range passes the top of the address space, and that every command answers a next
state (60_exceptions.md rules R104, R109 and R112). -/

namespace Sys2Proof.Machine

/-- Past the top of the address space every command runs the frame that ends with RANGE. -/
theorem exec_pastTop {i : Instr} {s : State} (hb : s.busy = false) (h : 2 ^ 32 < s.addr.toNat + byteCount i s.len) :
    exec i s = .next { s with
      done := false, err := true, errcode := 2#4, sticky := true
      responses := s.responses ++ [Response.writeDone s.master] } :=
  (exec_eq_runFrame i s).trans (congrArg _ (runFrame_range hb h))

/-- Settles O21: the frame ends with RANGE at acceptance, and a command over no byte completes without error. -/
theorem rangePastTopRaisesRange : Obligations.RangePastTopRaisesRange := by
  unfold Obligations.RangePastTopRaisesRange
  refine ⟨fun i s _ hb hpast => exec_pastTop hb hpast, fun i s t hwf hb hcount h => ?empty,
    fun len hlen => if_neg (not_lt.mpr hlen), fun len => rfl⟩
  case empty =>
    rw [exec_empty hwf hb hcount] at h
    injection h with ht
    have hcode : t.errcode = 0#4 := by rw [← ht, State.completed]
    rw [hcode]
    decide

/-- Settles O25: every command answers the state that its frame leaves, at a free window and at a busy one. -/
theorem everyCommandAnswersNext : Obligations.EveryCommandAnswersNext := by
  unfold Obligations.EveryCommandAnswersNext
  exact fun i s => ⟨_, exec_eq_runFrame i s⟩

end Sys2Proof.Machine
end

section
/-! PROOF. The reset input, and the two ways that a command in execution can go on: to its end where its reads are answered, and to
the reset input alone where one is not (70_reset_and_hazards.md rules R121, R122, R130 and R131). -/

namespace Sys2Proof.Machine

/-! ### A command left to itself -/

theorem engineTurns_of_idle {s : State} {j k : Nat} (hidle : (engineTurns j s).phase = .idle) (hle : j ≤ k) :
    engineTurns k s = engineTurns j s := by
  rw [← Nat.add_sub_cancel' hle, engineTurns_add, engineTurns_fixed (engineTurn_idle hidle)]

/-- Where the engine's steps end a command, a run in which no other agent acts comes to that end. The run stops at the first idle
state, for the step after it would grant the window to a held access. -/
theorem exists_run_eq_engineTurns {s : State} {k : Nat} (hscript : s.script = []) (hreset : s.resetAsserted = false)
    (hidle : (engineTurns k s).phase = .idle) : ∃ j ≤ k, Sys2Proof.core.run j s = .next (engineTurns k s) := by
  have hends : ∃ j, (engineTurns j s).phase = .idle := ⟨k, hidle⟩
  have hfirst : Nat.find hends ≤ k := Nat.find_min' hends hidle
  refine ⟨Nat.find hends, hfirst, ?_⟩
  rw [engineTurns_of_idle (Nat.find_spec hends) hfirst]
  exact run_exec_turns _ s hscript hreset fun _ => Nat.find_min hends

/-- Settles O32: the engine's own steps end the command in time, and the machine's run follows them until it is idle. -/
theorem answeredCommandEndsInBoundedSteps : Obligations.AnsweredCommandEndsInBoundedSteps := by
  unfold Obligations.AnsweredCommandEndsInBoundedSteps
  intro s e hp hscript hreset hstalled hdraws hregions
  obtain ⟨k, hk, hidle, hresponses, houtcome⟩ := engineTurns_end_within _ s e rfl hp hstalled ⟨hdraws, hregions⟩
  obtain ⟨j, hj, hrun⟩ := exists_run_eq_engineTurns hscript hreset hidle
  exact ⟨j, _, hj.trans hk, hrun, hidle, hresponses, houtcome⟩

/-! ### A hung command -/

/-- Settles O33: the window is busy and the engine stands still, so of all the turns only an assertion of reset touches the command. -/
theorem hungCommandWaitsForReset : Obligations.HungCommandWaitsForReset := by
  unfold Obligations.HungCommandWaitsForReset
  intro s t e hp hstalled hreset h
  obtain ⟨rest, -, ⟨rfl, -⟩ | ⟨-, rfl⟩ | ⟨a, alone, -, r, -, rfl⟩ | ⟨hfree, -⟩ | ⟨m, d, rfl, -⟩ | ⟨host, a, v, -, rfl⟩ |
    ⟨hassert, rfl⟩ | ⟨-, hasserted, -⟩⟩ := step_cases h
  · exact .inl ⟨hp, rfl, rfl, rfl, rfl⟩
  · rw [engineTurn_stalled (s := { s with script := rest }) hp hstalled]
    exact .inl ⟨hp, rfl, rfl, rfl, rfl⟩
  · exact .inl ⟨hp, rfl, rfl, rfl, rfl⟩
  · exact absurd (busy_of_exec hp) (Bool.eq_false_iff.mp hfree)
  · exact .inl ⟨hp, rfl, rfl, rfl, rfl⟩
  · exact .inl ⟨hp, rfl, rfl, rfl, rfl⟩
  · exact .inr ⟨⟨rest, hassert⟩, clearEngine_engineCleared { s with script := rest }⟩
  · exact absurd hasserted (Bool.eq_false_iff.mp hreset)

/-! ### The reset input -/

/-- The answer with which reset completes the CMD write of the command it abandons. -/
def State.abandonAnswer (s : State) : List Response :=
  match s.phase with
  | .idle => []
  | .exec e => [Response.writeDone e.issuer]

theorem clearEngine_eq (s : State) : s.clearEngine = { s with
    addr := 0#32, len := 0#32, ipsrc := 0#32, ipdst := 0#32, result := 0#16
    done := false, err := false, sticky := false, errcode := 0#4, phase := .idle
    responses := s.responses ++ s.abandonAnswer } := by
  unfold State.clearEngine State.abandonAnswer
  cases s.phase with
  | idle => simp only [List.append_nil]
  | exec e => rfl

theorem step_resetAssert {s : State} {rest : List Turn} (hs : s.script = .resetAssert :: rest) :
    step s = .next { ({ s with script := rest } : State).clearEngine with resetAsserted := true } :=
  step_of_script hs

theorem step_resetRelease {s : State} {rest : List Turn} (hs : s.script = .resetRelease :: rest)
    (hreset : s.resetAsserted = true) :
    step s = .next { ({ s with script := rest } : State).clearEngine with resetAsserted := false } :=
  (step_of_script hs).trans (congrArg _ (if_pos hreset))

/-- Settles O44: either turn clears the engine and sets whether the input is asserted. -/
theorem resetInputClearsEngine : Obligations.ResetInputClearsEngine := by
  unfold Obligations.ResetInputClearsEngine
  intro s rest answer hanswer
  obtain rfl : answer = s.abandonAnswer := hanswer
  refine ⟨fun hs => ?assert, fun hs hreset => ?release⟩
  case assert =>
    rw [step_resetAssert hs, clearEngine_eq]
    rfl
  case release =>
    rw [step_resetRelease hs hreset, clearEngine_eq]
    rfl

end Sys2Proof.Machine
end
